-- ==== Sys2Proof/Word.lean ====
section
/-! DEFINITION. The word types of the core (spec/10_state.md R13, R15, R16; spec/00_scope.md R8). -/

namespace Sys2Proof

/-- A byte of memory or a general register (R13, R37). Every value is unsigned (R8). -/
abbrev Byte := BitVec 8

/-- A 16-bit value: the index register, the program counter, a return address, an instruction word (R15, R16, R17, R56). -/
abbrev Word := BitVec 16

/-- The index of a general register, V0 to VF: every index 0 to 15 names a register (R13). -/
abbrev Reg := Fin 16

/-- The index of a logical key, 0 to 15 (R24). -/
abbrev Key := Fin 16

/-- The name of the flag register (R14). -/
abbrev VF : Reg := 15

end Sys2Proof
end

