-- ==== Sys2Proof/Syntax.lean ====
section
/-! DEFINITION. The instructions, one constructor per row of spec/opcode_table.json, in the table's order
(spec/30_encoding.md R59). The operands are the fields of R56, already of their field's width. -/

namespace Sys2Proof

/-- One instruction of the base set (R59). `x` and `y` name registers, `k` is the immediate byte, `addr` the 12-bit
immediate address, `n` the 4-bit row count (R56, R57). -/
inductive Instr where
  /-- 00E0 `CLS`: clear the display (R109). -/
  | cls
  /-- 00EE `RET`: return from subroutine (R80). -/
  | ret
  /-- 1aaa `JP addr`: jump (R81). -/
  | jp (addr : BitVec 12)
  /-- 2aaa `CALL addr`: call subroutine (R82). -/
  | call (addr : BitVec 12)
  /-- 3xkk `SE Vx, k`: skip if equal to the immediate (R83). -/
  | seK (x : Reg) (k : Byte)
  /-- 4xkk `SNE Vx, k`: skip if not equal to the immediate (R84). -/
  | sneK (x : Reg) (k : Byte)
  /-- 5xy0 `SE Vx, Vy`: skip if the registers are equal (R85). -/
  | seV (x y : Reg)
  /-- 6xkk `LD Vx, k`: load the immediate (R89). -/
  | ldK (x : Reg) (k : Byte)
  /-- 7xkk `ADD Vx, k`: add the immediate, no flag (R90). -/
  | addK (x : Reg) (k : Byte)
  /-- 8xy0 `LD Vx, Vy`: copy (R91). -/
  | ldV (x y : Reg)
  /-- 8xy1 `OR Vx, Vy` (R92). -/
  | orV (x y : Reg)
  /-- 8xy2 `AND Vx, Vy` (R93). -/
  | andV (x y : Reg)
  /-- 8xy3 `XOR Vx, Vy` (R94). -/
  | xorV (x y : Reg)
  /-- 8xy4 `ADD Vx, Vy`: add with carry (R95). -/
  | addV (x y : Reg)
  /-- 8xy5 `SUB Vx, Vy`: subtract (R96). -/
  | subV (x y : Reg)
  /-- 8xy6 `SHR Vx, Vy`: shift right by one (R97). -/
  | shrV (x y : Reg)
  /-- 8xy7 `SUBN Vx, Vy`: reversed subtract (R98). -/
  | subnV (x y : Reg)
  /-- 8xyE `SHL Vx, Vy`: shift left by one (R99). -/
  | shlV (x y : Reg)
  /-- 9xy0 `SNE Vx, Vy`: skip if the registers differ (R86). -/
  | sneV (x y : Reg)
  /-- Aaaa `LD I, addr`: set the index register (R102). -/
  | ldI (addr : BitVec 12)
  /-- Baaa `JP V0, addr`: offset jump (R87). -/
  | jpV0 (addr : BitVec 12)
  /-- Cxkk `RND Vx, k`: random byte AND mask (R100). -/
  | rnd (x : Reg) (k : Byte)
  /-- Dxyn `DRW Vx, Vy, n`: draw a sprite (R110). -/
  | drw (x y : Reg) (n : Fin 16)
  /-- Ex9E `SKP Vx`: skip if the key is pressed (R118). -/
  | skp (x : Reg)
  /-- ExA1 `SKNP Vx`: skip if the key is not pressed (R119). -/
  | sknp (x : Reg)
  /-- Fx07 `LD Vx, DT`: read the delay timer (R114). -/
  | ldVDt (x : Reg)
  /-- Fx0A `LD Vx, K`: arm the key wait (R120). -/
  | ldVKey (x : Reg)
  /-- Fx15 `LD DT, Vx`: write the delay timer (R115). -/
  | ldDtV (x : Reg)
  /-- Fx18 `LD ST, Vx`: write the sound timer (R116). -/
  | ldStV (x : Reg)
  /-- Fx1E `ADD I, Vx`: add a register to the index register (R103). -/
  | addI (x : Reg)
  /-- Fx29 `LD F, Vx`: index of a font glyph (R104). -/
  | ldF (x : Reg)
  /-- Fx33 `LD B, Vx`: store the decimal digits (R105). -/
  | ldB (x : Reg)
  /-- Fx55 `LD [I], Vx`: store V0 to Vx (R106). -/
  | store (x : Reg)
  /-- Fx65 `LD Vx, [I]`: load V0 to Vx (R107). -/
  | load (x : Reg)
  deriving DecidableEq, Repr

end Sys2Proof
end

