-- ==== Sys2Proof/Decode.lean ====
section
/-! DEFINITION. Decoding and encoding (spec/30_encoding.md R56 to R62). The table is R59, with its strict masks (R60). -/

namespace Sys2Proof

/-! ### Fields of an instruction word (R56) -/

/-- A register index or row count from its four bits. -/
def nibbleOfBits (b : BitVec 4) : Fin 16 := b.toFin

/-- The four bits of a register index or row count. -/
def bitsOfNibble (r : Fin 16) : BitVec 4 := BitVec.ofFin r

/-- `x`, bits 11 to 8 (R56). -/
def fieldX (w : Word) : Reg := nibbleOfBits (w.extractLsb' 8 4)

/-- `y`, bits 7 to 4 (R56). -/
def fieldY (w : Word) : Reg := nibbleOfBits (w.extractLsb' 4 4)

/-- `n`, bits 3 to 0 (R56). -/
def fieldN (w : Word) : Fin 16 := nibbleOfBits (w.extractLsb' 0 4)

/-- `k`, bits 7 to 0 (R56). -/
def fieldK (w : Word) : Byte := w.extractLsb' 0 8

/-- `addr`, bits 11 to 0 (R56). -/
def fieldAddr (w : Word) : BitVec 12 := w.extractLsb' 0 12

/-! ### The opcode table (R59) -/

/-- One row of R59: the words `w` with `w & mask = pattern` are this instruction, with the operands `build` reads from
the fields of `w`. -/
structure OpcodeRow where
  mnemonic : String
  mask : Word
  pattern : Word
  build : Word → Instr

/-- Rows 1 to 4 of R59. -/
def tableSystem : List OpcodeRow :=
  [⟨"CLS", 0xFFFF#16, 0x00E0#16, fun _ => .cls⟩,
   ⟨"RET", 0xFFFF#16, 0x00EE#16, fun _ => .ret⟩,
   ⟨"JP_addr", 0xF000#16, 0x1000#16, fun w => .jp (fieldAddr w)⟩,
   ⟨"CALL_addr", 0xF000#16, 0x2000#16, fun w => .call (fieldAddr w)⟩]

/-- Rows 5 to 9 of R59. -/
def tableImmediate : List OpcodeRow :=
  [⟨"SE_Vx__k", 0xF000#16, 0x3000#16, fun w => .seK (fieldX w) (fieldK w)⟩,
   ⟨"SNE_Vx__k", 0xF000#16, 0x4000#16, fun w => .sneK (fieldX w) (fieldK w)⟩,
   ⟨"SE_Vx__Vy", 0xF00F#16, 0x5000#16, fun w => .seV (fieldX w) (fieldY w)⟩,
   ⟨"LD_Vx__k", 0xF000#16, 0x6000#16, fun w => .ldK (fieldX w) (fieldK w)⟩,
   ⟨"ADD_Vx__k", 0xF000#16, 0x7000#16, fun w => .addK (fieldX w) (fieldK w)⟩]

/-- Rows 10 to 19 of R59. -/
def tableRegister : List OpcodeRow :=
  [⟨"LD_Vx__Vy", 0xF00F#16, 0x8000#16, fun w => .ldV (fieldX w) (fieldY w)⟩,
   ⟨"OR_Vx__Vy", 0xF00F#16, 0x8001#16, fun w => .orV (fieldX w) (fieldY w)⟩,
   ⟨"AND_Vx__Vy", 0xF00F#16, 0x8002#16, fun w => .andV (fieldX w) (fieldY w)⟩,
   ⟨"XOR_Vx__Vy", 0xF00F#16, 0x8003#16, fun w => .xorV (fieldX w) (fieldY w)⟩,
   ⟨"ADD_Vx__Vy", 0xF00F#16, 0x8004#16, fun w => .addV (fieldX w) (fieldY w)⟩,
   ⟨"SUB_Vx__Vy", 0xF00F#16, 0x8005#16, fun w => .subV (fieldX w) (fieldY w)⟩,
   ⟨"SHR_Vx__Vy", 0xF00F#16, 0x8006#16, fun w => .shrV (fieldX w) (fieldY w)⟩,
   ⟨"SUBN_Vx__Vy", 0xF00F#16, 0x8007#16, fun w => .subnV (fieldX w) (fieldY w)⟩,
   ⟨"SHL_Vx__Vy", 0xF00F#16, 0x800E#16, fun w => .shlV (fieldX w) (fieldY w)⟩,
   ⟨"SNE_Vx__Vy", 0xF00F#16, 0x9000#16, fun w => .sneV (fieldX w) (fieldY w)⟩]

/-- Rows 20 to 23 of R59. -/
def tableAddress : List OpcodeRow :=
  [⟨"LD_I__addr", 0xF000#16, 0xA000#16, fun w => .ldI (fieldAddr w)⟩,
   ⟨"JP_V0__addr", 0xF000#16, 0xB000#16, fun w => .jpV0 (fieldAddr w)⟩,
   ⟨"RND_Vx__k", 0xF000#16, 0xC000#16, fun w => .rnd (fieldX w) (fieldK w)⟩,
   ⟨"DRW_Vx__Vy__n", 0xF000#16, 0xD000#16, fun w => .drw (fieldX w) (fieldY w) (fieldN w)⟩]

/-- Rows 24 to 34 of R59. -/
def tableKeyTimer : List OpcodeRow :=
  [⟨"SKP_Vx", 0xF0FF#16, 0xE09E#16, fun w => .skp (fieldX w)⟩,
   ⟨"SKNP_Vx", 0xF0FF#16, 0xE0A1#16, fun w => .sknp (fieldX w)⟩,
   ⟨"LD_Vx__DT", 0xF0FF#16, 0xF007#16, fun w => .ldVDt (fieldX w)⟩,
   ⟨"LD_Vx__K", 0xF0FF#16, 0xF00A#16, fun w => .ldVKey (fieldX w)⟩,
   ⟨"LD_DT__Vx", 0xF0FF#16, 0xF015#16, fun w => .ldDtV (fieldX w)⟩,
   ⟨"LD_ST__Vx", 0xF0FF#16, 0xF018#16, fun w => .ldStV (fieldX w)⟩,
   ⟨"ADD_I__Vx", 0xF0FF#16, 0xF01E#16, fun w => .addI (fieldX w)⟩,
   ⟨"LD_F__Vx", 0xF0FF#16, 0xF029#16, fun w => .ldF (fieldX w)⟩,
   ⟨"LD_B__Vx", 0xF0FF#16, 0xF033#16, fun w => .ldB (fieldX w)⟩,
   ⟨"LD__I___Vx", 0xF0FF#16, 0xF055#16, fun w => .store (fieldX w)⟩,
   ⟨"LD_Vx___I", 0xF0FF#16, 0xF065#16, fun w => .load (fieldX w)⟩]

/-- The 34 rows of R59, in its order. UNVERIFIED (log entry 10): the spec gives the patterns from general knowledge. -/
def opcodeTable : List OpcodeRow :=
  tableSystem ++ tableImmediate ++ tableRegister ++ tableAddress ++ tableKeyTimer

/-- Whether a word selects a row (R58). -/
def OpcodeRow.selects (r : OpcodeRow) (w : Word) : Bool := w &&& r.mask == r.pattern

/-- The instruction of a word: that of the row it selects, none where it selects none (R58, R61). -/
def decodeWord (w : Word) : Option Instr :=
  (opcodeTable.find? (fun r => r.selects w)).map (fun r => r.build w)

/-! ### Bytes -/

/-- Why a byte sequence is no instruction. -/
inductive DecodeReject where
  /-- Fewer than the two bytes every instruction has (R64). -/
  | truncated
  /-- The word matches no row (R58, R61). -/
  | unrecognized (w : Word)
  deriving DecidableEq, Repr

/-- The word of two consecutive bytes, big-endian: the first is bits 15 to 8 (R40). -/
def wordOfBytes (hi lo : Byte) : Word := hi ++ lo

/-- The byte of a word at the lower address, bits 15 to 8 (R40). -/
def highByte (w : Word) : Byte := w.extractLsb' 8 8

/-- The byte of a word at the higher address, bits 7 to 0 (R40). -/
def lowByte (w : Word) : Byte := w.extractLsb' 0 8

/-- Decode the instruction at the head of a byte sequence; the rest of the sequence comes with it (R40, R58, R64). -/
def decode : List Byte → Except DecodeReject (Instr × List Byte)
  | hi :: lo :: rest =>
    match decodeWord (wordOfBytes hi lo) with
    | some i => .ok (i, rest)
    | none => .error (.unrecognized (wordOfBytes hi lo))
  | _ => .error .truncated

/-! ### Encoding (R56, R59) -/

/-- A word of the form `op x y n`. -/
def wordXYN (op : BitVec 4) (x y : Reg) (n : BitVec 4) : Word := op ++ bitsOfNibble x ++ bitsOfNibble y ++ n

/-- A word of the form `op x k`. -/
def wordXK (op : BitVec 4) (x : Reg) (k : Byte) : Word := op ++ bitsOfNibble x ++ k

/-- A word of the form `op addr`. -/
def wordAddr (op : BitVec 4) (addr : BitVec 12) : Word := op ++ addr

/-- The word of an instruction (R59). -/
def encode : Instr → Word
  | .cls => 0x00E0#16
  | .ret => 0x00EE#16
  | .jp addr => wordAddr 0x1#4 addr
  | .call addr => wordAddr 0x2#4 addr
  | .seK x k => wordXK 0x3#4 x k
  | .sneK x k => wordXK 0x4#4 x k
  | .seV x y => wordXYN 0x5#4 x y 0x0#4
  | .ldK x k => wordXK 0x6#4 x k
  | .addK x k => wordXK 0x7#4 x k
  | .ldV x y => wordXYN 0x8#4 x y 0x0#4
  | .orV x y => wordXYN 0x8#4 x y 0x1#4
  | .andV x y => wordXYN 0x8#4 x y 0x2#4
  | .xorV x y => wordXYN 0x8#4 x y 0x3#4
  | .addV x y => wordXYN 0x8#4 x y 0x4#4
  | .subV x y => wordXYN 0x8#4 x y 0x5#4
  | .shrV x y => wordXYN 0x8#4 x y 0x6#4
  | .subnV x y => wordXYN 0x8#4 x y 0x7#4
  | .shlV x y => wordXYN 0x8#4 x y 0xE#4
  | .sneV x y => wordXYN 0x9#4 x y 0x0#4
  | .ldI addr => wordAddr 0xA#4 addr
  | .jpV0 addr => wordAddr 0xB#4 addr
  | .rnd x k => wordXK 0xC#4 x k
  | .drw x y n => wordXYN 0xD#4 x y (bitsOfNibble n)
  | .skp x => wordXK 0xE#4 x 0x9E#8
  | .sknp x => wordXK 0xE#4 x 0xA1#8
  | .ldVDt x => wordXK 0xF#4 x 0x07#8
  | .ldVKey x => wordXK 0xF#4 x 0x0A#8
  | .ldDtV x => wordXK 0xF#4 x 0x15#8
  | .ldStV x => wordXK 0xF#4 x 0x18#8
  | .addI x => wordXK 0xF#4 x 0x1E#8
  | .ldF x => wordXK 0xF#4 x 0x29#8
  | .ldB x => wordXK 0xF#4 x 0x33#8
  | .store x => wordXK 0xF#4 x 0x55#8
  | .load x => wordXK 0xF#4 x 0x65#8

/-- The bytes of an instruction, the one at the lowest address first (R40). -/
def encodeBytes (i : Instr) : List Byte := [highByte (encode i), lowByte (encode i)]

/-! ### The table's numbering of bits -/

/-- The instruction that the decoder reads from the word whose bits are the low `nbits` bits of `w`, as
spec/opcode_table.json numbers them: every instruction is one 16-bit word (R64), its bits 15 to 8 the byte at the lower
address (R40). -/
def decodeTableWord (nbits w : Nat) : Option Instr :=
  let word := BitVec.ofNat 16 (w % 2 ^ nbits)
  match decode [highByte word, lowByte word] with
  | .ok (i, _) => some i
  | .error _ => none

end Sys2Proof
end

