-- ==== Sys2Proof/Config.lean ====
section
/-! DEFINITION. The sizes and addresses of spec/00_scope.md R6, and the one free value of the model. The other parameters
of R6 are in Machine/Parameters.lean. -/

namespace Sys2Proof.Config

/-- Bytes of memory, addresses 0x000 to 0xFFF (R6 `MEM_SIZE`, R37). -/
abbrev memSize : Nat := 4096

/-- Framebuffer columns (R6 `DISPLAY_W`). -/
abbrev displayW : Nat := 64

/-- Framebuffer rows (R6 `DISPLAY_H`). -/
abbrev displayH : Nat := 32

/-- The timer decrement period in seconds, 60 Hz (R6 `TICK`). -/
abbrev tick : Rat := 1 / 60

/-- The lowest legal load address of a ROM, and the conventional start address (R6 `LOAD_MIN`, R47). -/
abbrev loadMin : Nat := 0x200

/-- Where the font stands (R6 `FONT_BASE`). -/
abbrev fontBase : Nat := 0

/-- Bytes of one glyph (R6 `GLYPH_BYTES`). -/
abbrev glyphBytes : Nat := 5

/-- FREE VALUE (log entry 5): the byte the injected random source answers at its `n`-th draw. The spec places no
law on the bytes (R29, R100), so this constant has no body. -/
opaque randByte : Nat → Byte

end Sys2Proof.Config
end

