-- ==== Sys2Proof/Machine/Parameters.lean ====
section
/-! DEFINITION. The parameters of spec/00_scope.md R6 that one build of the core fixes: the depth of the call stack, the
filler byte, the initial register values and the font. -/

namespace Sys2Proof.Config

/-- The most return addresses the call stack holds (R6 `CALL_STACK_DEPTH`, R17, 90_conflicts.md C1). -/
abbrev callStackDepth : Nat := 32

/-- The filler byte of the ROM variant (R6 `FILL`). -/
abbrev fill : Byte := 0xFF#8

/-- The value of V0 to VF after construction (R6 `V_INIT`, R35). -/
abbrev vInit : Byte := 0xFF#8

/-- The value of I after construction (R6 `I_INIT`, R35). -/
abbrev iInit : Word := 0x00FF#16

/-- Glyphs 0 to 7 of `FONT` (R147). -/
def fontLow : List Byte :=
  [0xF0#8, 0x90#8, 0x90#8, 0x90#8, 0xF0#8] ++
  [0x20#8, 0x60#8, 0x20#8, 0x20#8, 0x70#8] ++
  [0xF0#8, 0x10#8, 0xF0#8, 0x80#8, 0xF0#8] ++
  [0xF0#8, 0x10#8, 0xF0#8, 0x10#8, 0xF0#8] ++
  [0x90#8, 0x90#8, 0xF0#8, 0x10#8, 0x10#8] ++
  [0xF0#8, 0x80#8, 0xF0#8, 0x10#8, 0xF0#8] ++
  [0xF0#8, 0x80#8, 0xF0#8, 0x90#8, 0xF0#8] ++
  [0xF0#8, 0x10#8, 0x20#8, 0x40#8, 0x40#8]

/-- Glyphs 8 to F of `FONT` (R147). -/
def fontHigh : List Byte :=
  [0xF0#8, 0x90#8, 0xF0#8, 0x90#8, 0xF0#8] ++
  [0xF0#8, 0x90#8, 0xF0#8, 0x10#8, 0xF0#8] ++
  [0xF0#8, 0x90#8, 0xF0#8, 0x90#8, 0x90#8] ++
  [0xE0#8, 0x90#8, 0xE0#8, 0x90#8, 0xE0#8] ++
  [0xF0#8, 0x80#8, 0x80#8, 0x80#8, 0xF0#8] ++
  [0xE0#8, 0x90#8, 0x90#8, 0x90#8, 0xE0#8] ++
  [0xF0#8, 0x80#8, 0xF0#8, 0x80#8, 0xF0#8] ++
  [0xF0#8, 0x80#8, 0xF0#8, 0x80#8, 0x80#8]

/-- The 80 glyph bytes, glyph `d` at `5·d` (R6 `FONT`, R147).
UNVERIFIED (log entry 2): the spec gives them from general knowledge. -/
def font : List Byte := fontLow ++ fontHigh

end Sys2Proof.Config
end

