-- ==== Sys2Proof/WellFormed.lean ====
section
/-! DEFINITION. Well-formedness of what comes from outside the machine.

An instruction needs no check: each operand's type has exactly the width of its field (spec/30_encoding.md R56), so an
ill-formed instruction cannot be built. What the host supplies can be ill-formed, and is checked here: the arguments of
the two constructors (spec/70_reset_and_hazards.md R146) and the elapsed time of a step (spec/40_step_cycle.md R68). -/

namespace Sys2Proof

/-- Every instruction is well formed: `x`, `y` and `n` are below 16, `k` below 256, `addr` below 4096 by their types
(R56, R57), and every instruction is always present (00_scope.md R7). -/
def Instr.wellFormed : Instr → Bool
  | .cls | .ret => true
  | .jp _ | .call _ | .ldI _ | .jpV0 _ => true
  | .seK _ _ | .sneK _ _ | .ldK _ _ | .addK _ _ | .rnd _ _ => true
  | .seV _ _ | .ldV _ _ | .orV _ _ | .andV _ _ | .xorV _ _ | .addV _ _ | .subV _ _ | .shrV _ _ => true
  | .subnV _ _ | .shlV _ _ | .sneV _ _ => true
  | .drw _ _ _ => true
  | .skp _ | .sknp _ | .ldVDt _ | .ldVKey _ | .ldDtV _ | .ldStV _ => true
  | .addI _ | .ldF _ | .ldB _ | .store _ | .load _ => true

/-- A full image is legal exactly when it has 4096 bytes (R144, R146). -/
def wellFormedImage (image : List Byte) : Bool := image.length == Config.memSize

/-- A ROM is legal exactly when its load address is at least 0x200 and it fits below 4096 (R145, R146). -/
def wellFormedRom (rom : List Byte) (load : Word) : Bool :=
  decide (Config.loadMin ≤ load.toNat) && decide (load.toNat + rom.length ≤ Config.memSize)

/-- An elapsed time is legal exactly when it is not negative (R68). -/
def wellFormedElapsed (elapsed : Rat) : Bool := decide (0 ≤ elapsed)

end Sys2Proof
end

