-- ==== Sys2Proof/Machine/State.lean ====
section
/-! DEFINITION. The state of the core (spec/10_state.md R13 to R30, R35), the reasons it halts (spec/60_exceptions.md
R129), the host's operations (R32), and why a step has no next state. -/

namespace Sys2Proof.Machine

/-- Memory `M` (R37): the cells that differ from what construction left there, addresses strictly rising. What an
unlisted address reads as is `initialByte` (Machine/Ops.lean); the canonical form is `Memory.wf`. -/
abbrev Memory := List Host.Cell

/-- The framebuffer `FB` (R23, R108): one word per row, row 0 the top. A row's word is its eight packed bytes, the first
the most significant, so column `c` is its bit `63 - c` (log entry 9). -/
abbrev Framebuffer := Vector (BitVec 64) 32

/-- Why the core halted, with the codes of R129 in their order. -/
inductive HaltReason where
  /-- Code 1: the word matches no row of the opcode table. -/
  | unrecognizedInstruction
  /-- Code 2: a CALL with 32 return addresses on the stack. -/
  | stackOverflow
  /-- Code 3: a RET with an empty stack. -/
  | stackUnderflow
  /-- Code 4: an access to an address at or above 0x1000. -/
  | memoryOutOfRange
  /-- Code 5: SKP or SKNP with a key index above 15. -/
  | keyIndexOutOfRange
  /-- Code 6: ADD I, Vx with a sum above 0xFFFF. -/
  | indexOverflow
  deriving DecidableEq, Repr

/-- The host operations that change state (R32). The queries `get_display_spot` and `is_tone_on` change none (R34): they
are functions of the state. -/
inductive HostOp where
  /-- `step(elapsed)` (R68). -/
  | step (elapsed : Rat)
  /-- `set_keydown(k, down)` (R121). -/
  | setKeydown (k : Int) (down : Bool)
  deriving DecidableEq, Repr

/-- The two timers and the time accumulator, as phase 2 of a step sees them (R70). -/
structure Clock where
  dt : Byte
  st : Byte
  acc : Rat
  deriving DecidableEq, Repr

/-- The complete state (R30). -/
structure State where
  /-- `M` (R27, R37). -/
  mem : Memory
  /-- `V[0]` to `V[15]` (R13). -/
  v : Vector Byte 16
  /-- `I` (R15). -/
  i : Word
  /-- `PC` (R16). -/
  pc : Word
  /-- `S`, newest return address first (R17; log entry 8). -/
  stack : List Word
  /-- `DT` (R20). -/
  dt : Byte
  /-- `ST` (R21). -/
  st : Byte
  /-- `acc`, in seconds (R22). -/
  acc : Rat
  /-- `FB` (R23). -/
  fb : Framebuffer
  /-- `K`, true for a key last reported down (R24). -/
  keys : Vector Bool 16
  /-- `waiting`, the armed flag (R25). -/
  waiting : Bool
  /-- `wait_reg` (R25). -/
  waitReg : Reg
  /-- `halted` and `halt_reason` in one: none while not halted (R26; log entry 7). -/
  halt : Option HaltReason
  /-- MODEL'S OWN: the bytes the random source is known to answer next, oldest first (log entry 5). -/
  randBytes : List Byte
  /-- MODEL'S OWN: how many bytes have been drawn (log entry 5). -/
  draws : Nat
  /-- MODEL'S OWN: the host's coming operations, oldest first (log entry 4). -/
  host : List HostOp
  deriving DecidableEq, Repr

/-- `halted` (R26). -/
def State.halted (s : State) : Bool := s.halt.isSome

/-- Reasons a step could stop with no next state because the machine failed. THERE ARE NONE: every runtime fault of the
spec is a halt, whose state the spec describes (R76, R131), so the model gives it as a next state (log entry 6). Nobody
raises a fault; that is safe, since nothing can be proved of one. -/
inductive Fault
  deriving DecidableEq, Repr

/-- Reasons a host operation has no transition. -/
inductive Refusal where
  /-- Raised by an arm of `exec` whose instruction has no meaning yet. No arm raises it. Safe. -/
  | notModelled (mnemonic : String)
  /-- Raised by `stepElapsed` on a halted core: "A model gives such a call no transition: the call is refused" (R68).
  Safe: the spec refuses it too. -/
  | stepAfterHalt
  /-- Raised by `stepElapsed` for a negative elapsed time, which "is outside the interface and is refused the same way"
  (R68). Safe: the spec refuses it too. -/
  | negativeElapsed
  deriving DecidableEq, Repr

/-- What a meaning or a step answers. -/
abbrev Result := Host.Outcome State Fault Refusal

/-- The state after construction with the given memory, PC and known bytes of the random source (R35). -/
def State.constructed (mem : Memory) (pc : Word) (rand : List Byte) : State where
  mem := mem
  v := Vector.replicate 16 Config.vInit
  i := Config.iInit
  pc := pc
  stack := []
  dt := 0
  st := 0
  acc := 0
  fb := Vector.replicate 32 0
  keys := Vector.replicate 16 false
  waiting := false
  waitReg := 0
  halt := none
  randBytes := rand
  draws := 0
  host := []

/-- The machine right after reset. Construction is reset (R142): this is the ROM variant with an empty ROM, which is
legal (R146), at the conventional load address 0x200 (R47). DESIGN CHOICE (log entry 1): which legal construction it is. -/
def State.reset : State := State.constructed [] 0x0200#16 []

end Sys2Proof.Machine
end

