-- ==== Sys2Proof/Machine/Ops.lean ====
section
/-! DEFINITION. The named operations over the state that the meanings and the step share: memory, registers, the
framebuffer, the call stack, the random source, halting, time, keys and fetching. -/

namespace Sys2Proof.Machine

/-! ### Memory (spec/20_memory.md R37 to R46) -/

/-- What an address holds after construction when nothing else was put there: the font from address 0, filler above it
(R45; log entry 1). -/
def initialByte (a : Nat) : Byte := Config.font.getD a Config.fill

/-- The byte at an address: the listed one, else the construction value (R44, R50). -/
def Memory.read : Memory → Nat → Byte
  | [], a => initialByte a
  | (b, w) :: rest, a => if b = a then w else Memory.read rest a

/-- Put a cell into its place among rising addresses. -/
def Memory.insert : Memory → Nat → Byte → Memory
  | [], a, w => [(a, w)]
  | (b, x) :: rest, a, w => if a < b then (a, w) :: (b, x) :: rest else (b, x) :: Memory.insert rest a w

/-- Write one byte (R38). The canonical form is kept: a cell equal to the construction value is not listed. -/
def Memory.write (m : Memory) (a : Nat) (w : Byte) : Memory :=
  let others := m.filter (fun p => p.1 != a)
  if w = initialByte a then others else Memory.insert others a w

/-- The canonical form: addresses strictly rising and inside memory, no cell equal to the construction value. -/
abbrev Memory.wf (m : Memory) : Prop :=
  m.Pairwise (fun p q => p.1 < q.1) ∧ ∀ p ∈ m, p.1 < Config.memSize ∧ p.2 ≠ initialByte p.1

/-- The canonical memory that holds the given bytes from address 0 on. -/
def Memory.ofBytes (bytes : List Byte) : Memory :=
  ((List.range bytes.length).zip bytes).filter (fun p => p.2 != initialByte p.1)

/-- `MemRead(a, 1)` (R38). -/
def State.readByte (s : State) (a : Nat) : Byte := s.mem.read a

/-- `MemWrite(a, 1, w)` (R38). -/
def State.writeByte (s : State) (a : Nat) (w : Byte) : State := { s with mem := s.mem.write a w }

/-! ### Registers (spec/10_state.md R13 to R16) -/

/-- Read `V[x]` (R10, R13). -/
def State.readV (s : State) (x : Reg) : Byte := s.v[x]

/-- Write `V[x]` (R10, R13). None is hardwired. -/
def State.writeV (s : State) (x : Reg) (w : Byte) : State := { s with v := s.v.set x w }

/-- Write the index register (R15). -/
def State.setI (s : State) (w : Word) : State := { s with i := w }

/-- Write the program counter (R16). -/
def State.setPc (s : State) (w : Word) : State := { s with pc := w }

/-- Add 2 to PC, truncated to 16 bits: what the fetch does once (R74) and a skip once more (R79). -/
def State.advancePc (s : State) : State := s.setPc (s.pc + 2)

/-- Skip the next instruction when the condition holds (R79). -/
def State.skipIf (s : State) (c : Bool) : State := if c then s.advancePc else s

/-- Write a result to `V[x]`, then a flag to VF, in this order (R101), so that VF ends as the flag (R14). -/
def State.writeResultFlag (s : State) (x : Reg) (result flag : Byte) : State := (s.writeV x result).writeV VF flag

/-! ### Halting (spec/40_step_cycle.md R76) -/

/-- Record a halt and its reason (R26). -/
def State.setHalt (s : State) (r : HaltReason) : State := { s with halt := some r }

/-- `raise Halt(reason)`, the core's only reaction to a runtime fault (R128): record the reason and change nothing else
(R76, R131). It saves no state and jumps nowhere, and there is no return from it (R134). The halted state is a next
state (log entry 6). -/
def raiseHalt (r : HaltReason) (s : State) : Result := .next (s.setHalt r)

/-- The Boolean that the `step` which led to this state returned: `true` to continue, `false` on a halt (R76, R77). -/
def State.continues (s : State) : Bool := !s.halted

/-- Run `k` when every address from `a` on, `n` of them, exists, else halt before any change (R38). -/
def withBytes (a n : Nat) (s : State) (k : Result) : Result :=
  if a + n ≤ Config.memSize then k else raiseHalt .memoryOutOfRange s

/-! ### Framebuffer (spec/44_display.md R108) -/

/-- `FB[c, r]`; false outside the framebuffer. -/
def Framebuffer.get (fb : Framebuffer) (c r : Nat) : Bool := if h : r < 32 then fb[r].getMsbD c else false

/-- The row word with only column `c` set. -/
def columnBit (c : Nat) : BitVec 64 := 0x8000000000000000#64 >>> c

/-- XOR the pixel at column `c` of row `r` with 1. -/
def Framebuffer.flip (fb : Framebuffer) (c r : Nat) : Framebuffer :=
  if h : r < 32 then fb.set r (fb[r] ^^^ columnBit c) else fb

/-- A framebuffer with every pixel 0. -/
def Framebuffer.clear : Framebuffer := Vector.replicate 32 0

/-- Replace the framebuffer. -/
def State.setFb (s : State) (fb : Framebuffer) : State := { s with fb := fb }

/-- `FB[c, r]` of the state (R10). -/
def State.pixel (s : State) (c r : Nat) : Bool := s.fb.get c r

/-- `get_display_spot(c, r)`: false outside 0 to 63 and 0 to 31 (R112). -/
def State.getDisplaySpot (s : State) (c r : Int) : Bool :=
  if 0 ≤ c ∧ 0 ≤ r then s.pixel c.toNat r.toNat else false

/-! ### Call stack (spec/10_state.md R17) -/

/-- Replace the call stack. -/
def State.setStack (s : State) (stack : List Word) : State := { s with stack := stack }

/-- `Push(w)` (R10, R17). -/
def State.push (s : State) (w : Word) : State := s.setStack (w :: s.stack)

/-! ### Random source (spec/10_state.md R29) -/

/-- The byte the next `Rand()` answers: the known one, else a free value (log entry 5). -/
def State.nextRandom (s : State) : Byte :=
  match s.randBytes with
  | [] => Config.randByte s.draws
  | r :: _ => r

/-- The state once a byte is drawn. -/
def State.drawn (s : State) : State := { s with randBytes := s.randBytes.tail, draws := s.draws + 1 }

/-! ### Time (spec/40_step_cycle.md R69 to R72) -/

/-- `satdec` (R71). -/
def satdec (t : Byte) : Byte := if t = 0 then 0 else t - 1

/-- The loop of R70: a tick while the accumulator holds one. `fuel` bounds the number of ticks. -/
def takeTicks : Nat → Clock → Clock
  | 0, c => c
  | fuel + 1, c =>
    if Config.tick ≤ c.acc then takeTicks fuel ⟨satdec c.dt, satdec c.st, c.acc - Config.tick⟩ else c

/-- How many ticks an accumulator can hold: enough fuel for `takeTicks` (R72). -/
def tickBound (acc : Rat) : Nat := (acc / Config.tick).floor.toNat

/-- Phases 1 and 2 on the clock: accumulate, then take every tick (R69, R70). -/
def Clock.elapse (c : Clock) (e : Rat) : Clock := takeTicks (tickBound (c.acc + e)) { c with acc := c.acc + e }

/-- The clock of the state. -/
def State.clock (s : State) : Clock := ⟨s.dt, s.st, s.acc⟩

/-- Phases 1 and 2 of a step (R69, R70). -/
def State.elapse (s : State) (e : Rat) : State :=
  { s with dt := (s.clock.elapse e).dt, st := (s.clock.elapse e).st, acc := (s.clock.elapse e).acc }

/-- Write `DT` (R115). -/
def State.setDt (s : State) (w : Byte) : State := { s with dt := w }

/-- Write `ST` (R116). -/
def State.setSt (s : State) (w : Byte) : State := { s with st := w }

/-- `is_tone_on()` (R117). -/
def State.isToneOn (s : State) : Bool := s.st != 0

/-! ### Keys (spec/45_timers_input.md R120 to R122) -/

/-- `K[k]` (R10). -/
def State.keyDown (s : State) (k : Key) : Bool := s.keys[k]

/-- Write `K[k]`. -/
def State.setKey (s : State) (k : Key) (down : Bool) : State := { s with keys := s.keys.set k down }

/-- Arm the key wait for `V[x]` (R120). -/
def State.arm (s : State) (x : Reg) : State := { s with waiting := true, waitReg := x }

/-- Clear the armed flag (R122). -/
def State.disarm (s : State) : State := { s with waiting := false }

/-- End the key wait: clear the flag and write the key's index to the target register (R122). -/
def State.resolveWait (s : State) (k : Key) : State := s.disarm.writeV s.waitReg (BitVec.ofNat 8 k.val)

/-- `set_keydown(k, down)` (R121): nothing for an index outside 0 to 15, else record the state, and resolve an armed wait
on the release of a key recorded as down. -/
def setKeydown (k : Int) (down : Bool) (s : State) : State :=
  if 0 ≤ k ∧ k ≤ 15 then
    let key : Key := Fin.ofNat 16 k.toNat
    if s.waiting && s.keyDown key && !down then (s.setKey key down).resolveWait key else s.setKey key down
  else s

/-! ### Host operations (spec/10_state.md R32) -/

/-- Replace the host's coming operations (log entry 4). -/
def State.setHost (s : State) (ops : List HostOp) : State := { s with host := ops }

/-! ### Fetch (spec/20_memory.md R40) -/

/-- The word at PC and PC + 1, big-endian, where both addresses exist (R40, R74). -/
def State.fetch (s : State) : Option Word :=
  if s.pc.toNat + 1 < Config.memSize then
    some (wordOfBytes (s.readByte s.pc.toNat) (s.readByte (s.pc.toNat + 1)))
  else none

end Sys2Proof.Machine
end

