-- ==== Sys2Proof/Machine/Operands.lean ====
section
/-! DEFINITION. The operand forms and derived constants (spec/30_encoding.md R57). -/

namespace Sys2Proof.Machine

/-- A 12-bit address widened to 16 bits with zeros (R57). -/
def addressOperand (addr : BitVec 12) : Word := addr.setWidth 16

/-- The target of the offset jump: the address plus V0, not reduced to 12 bits (R87). -/
def offsetTarget (addr : BitVec 12) (v0 : Byte) : Word := addr.setWidth 16 + v0.setWidth 16

/-- The address of the font glyph for the low nibble of a register: nibble times 5 (R104). -/
def glyphAddress (v : Byte) : Word := BitVec.ofNat 16 (Config.fontBase + Config.glyphBytes * (v &&& 0x0F#8).toNat)

/-- The hundreds digit of a byte (R105). -/
def hundreds (v : Byte) : Byte := BitVec.ofNat 8 (v.toNat / 100)

/-- The tens digit of a byte (R105). -/
def tens (v : Byte) : Byte := BitVec.ofNat 8 (v.toNat / 10 % 10)

/-- The ones digit of a byte (R105). -/
def ones (v : Byte) : Byte := BitVec.ofNat 8 (v.toNat % 10)

end Sys2Proof.Machine
end

