-- ==== Sys2Proof/Machine/Arithmetic.lean ====
section
/-! DEFINITION. Register loads, logic, arithmetic, shifts and random (spec/42_arithmetic.md R88 to R101). -/

namespace Sys2Proof.Machine

/-- LD Vx, k (R89). -/
def execLdK (x : Reg) (k : Byte) (s : State) : Result := .next (s.writeV x k)

/-- ADD Vx, k (R90): the sum wraps and no flag is written. -/
def execAddK (x : Reg) (k : Byte) (s : State) : Result := .next (s.writeV x (s.readV x + k))

/-- LD Vx, Vy (R91). -/
def execLdV (x y : Reg) (s : State) : Result := .next (s.writeV x (s.readV y))

/-- OR Vx, Vy (R92). -/
def execOrV (x y : Reg) (s : State) : Result := .next (s.writeV x (s.readV x ||| s.readV y))

/-- AND Vx, Vy (R93). -/
def execAndV (x y : Reg) (s : State) : Result := .next (s.writeV x (s.readV x &&& s.readV y))

/-- XOR Vx, Vy (R94). -/
def execXorV (x y : Reg) (s : State) : Result := .next (s.writeV x (s.readV x ^^^ s.readV y))

/-- ADD Vx, Vy (R95): VF is the carry. -/
def execAddV (x y : Reg) (s : State) : Result :=
  let a := s.readV x
  let b := s.readV y
  .next (s.writeResultFlag x (a + b) (flagByte (carryOut a b)))

/-- SUB Vx, Vy (R96): VF is 1 where Vx is at least Vy. -/
def execSubV (x y : Reg) (s : State) : Result :=
  let a := s.readV x
  let b := s.readV y
  .next (s.writeResultFlag x (a - b) (flagByte (noBorrow a b)))

/-- SHR Vx, Vy (R97): Vx is Vy shifted right by one, VF the bit moved out. -/
def execShrV (x y : Reg) (s : State) : Result :=
  let b := s.readV y
  .next (s.writeResultFlag x (b >>> 1) (flagByte (shiftedOutRight b)))

/-- SUBN Vx, Vy (R98): Vx becomes Vy minus Vx, VF is 1 where Vy is at least Vx. -/
def execSubnV (x y : Reg) (s : State) : Result :=
  let a := s.readV x
  let b := s.readV y
  .next (s.writeResultFlag x (b - a) (flagByte (noBorrow b a)))

/-- SHL Vx, Vy (R99): Vx is Vy shifted left by one, VF the bit moved out. -/
def execShlV (x y : Reg) (s : State) : Result :=
  let b := s.readV y
  .next (s.writeResultFlag x (b <<< 1) (flagByte (shiftedOutLeft b)))

/-- RND Vx, k (R100): one draw, ANDed with the mask. -/
def execRnd (x : Reg) (k : Byte) (s : State) : Result := .next (s.drawn.writeV x (s.nextRandom &&& k))

end Sys2Proof.Machine
end

