-- ==== Sys2Proof/Machine/ControlFlow.lean ====
section
/-! DEFINITION. Control transfer (spec/41_control_flow.md R79 to R87). While a meaning runs, PC holds the address of the
instruction after it (R16). -/

namespace Sys2Proof.Machine

/-- RET (R80): pop the newest return address into PC; an empty stack halts. -/
def execRet (s : State) : Result :=
  match s.stack with
  | [] => raiseHalt .stackUnderflow s
  | a :: rest => .next ((s.setStack rest).setPc a)

/-- JP addr (R81). -/
def execJp (addr : BitVec 12) (s : State) : Result := .next (s.setPc (addressOperand addr))

/-- CALL addr (R82): push PC, then jump; a full stack halts. -/
def execCall (addr : BitVec 12) (s : State) : Result :=
  if s.stack.length < Config.callStackDepth then .next ((s.push s.pc).setPc (addressOperand addr))
  else raiseHalt .stackOverflow s

/-- SE Vx, k (R83). -/
def execSeK (x : Reg) (k : Byte) (s : State) : Result := .next (s.skipIf (s.readV x == k))

/-- SNE Vx, k (R84). -/
def execSneK (x : Reg) (k : Byte) (s : State) : Result := .next (s.skipIf (s.readV x != k))

/-- SE Vx, Vy (R85). -/
def execSeV (x y : Reg) (s : State) : Result := .next (s.skipIf (s.readV x == s.readV y))

/-- SNE Vx, Vy (R86). -/
def execSneV (x y : Reg) (s : State) : Result := .next (s.skipIf (s.readV x != s.readV y))

/-- JP V0, addr (R87). The register is always V0. -/
def execJpV0 (addr : BitVec 12) (s : State) : Result := .next (s.setPc (offsetTarget addr (s.readV 0)))

end Sys2Proof.Machine
end

