-- ==== Sys2Proof/Machine/Display.lean ====
section
/-! DEFINITION. Display and sprite drawing (spec/44_display.md R108 to R111). -/

namespace Sys2Proof.Machine

/-- CLS (R109): every pixel 0. -/
def execCls (s : State) : Result := .next (s.setFb Framebuffer.clear)

/-- The framebuffer while a sprite is drawn, with `hit` of R110. -/
abbrev Canvas := Framebuffer × Bool

/-- Draw one set sprite bit at column `c` of row `row`: clipped outside the screen, else a collision where the pixel was
set, and the pixel flips (R110). -/
def drawPixel (p : Canvas) (c row : Nat) : Canvas :=
  if c < Config.displayW ∧ row < Config.displayH then (p.1.flip c row, p.2 || p.1.get c row) else p

/-- Draw bit `7 - j` of a sprite byte, which falls on column `cx + j` (R110). -/
def drawBit (b : Byte) (cx row : Nat) (p : Canvas) (j : Nat) : Canvas :=
  if b.getLsbD (7 - j) then drawPixel p (cx + j) row else p

/-- Draw one sprite byte on a row, bit 7 leftmost (R110). -/
def drawRow (b : Byte) (cx row : Nat) (p : Canvas) : Canvas := (List.range 8).foldl (drawBit b cx row) p

/-- Draw `n` sprite bytes, the one at address `a + r` on row `cy + r` (R110). -/
def drawSprite (s : State) (a cx cy n : Nat) : Canvas :=
  (List.range n).foldl (fun p r => drawRow (s.readByte (a + r)) cx (cy + r) p) (s.fb, false)

/-- The effect of DRW once its bytes exist: the framebuffer, then VF the collision flag (R110). -/
def drawEffect (x y : Reg) (n : Fin 16) (s : State) : State :=
  let p := drawSprite s s.i.toNat (s.readV x).toNat (s.readV y).toNat n.val
  (s.setFb p.1).writeV VF (flagByte p.2)

/-- DRW Vx, Vy, n (R110). With `n = 0` nothing is read, so no address is checked. -/
def execDrw (x y : Reg) (n : Fin 16) (s : State) : Result :=
  if n.val = 0 then .next (drawEffect x y n s) else withBytes s.i.toNat n.val s (.next (drawEffect x y n s))

end Sys2Proof.Machine
end

