-- ==== Sys2Proof/Machine/IndexMemory.lean ====
section
/-! DEFINITION. The index register and memory (spec/43_index_memory.md R102 to R107). -/

namespace Sys2Proof.Machine

/-- LD I, addr (R102). -/
def execLdI (addr : BitVec 12) (s : State) : Result := .next (s.setI (addressOperand addr))

/-- ADD I, Vx (R103): a sum above 0xFFFF halts. -/
def execAddI (x : Reg) (s : State) : Result :=
  let sum := s.i.toNat + (s.readV x).toNat
  if sum ≤ 0xFFFF then .next (s.setI (BitVec.ofNat 16 sum)) else raiseHalt .indexOverflow s

/-- LD F, Vx (R104). -/
def execLdF (x : Reg) (s : State) : Result := .next (s.setI (glyphAddress (s.readV x)))

/-- The three digit writes of LD B (R105). -/
def storeDigits (v : Byte) (s : State) : State :=
  let a := s.i.toNat
  ((s.writeByte a (hundreds v)).writeByte (a + 1) (tens v)).writeByte (a + 2) (ones v)

/-- LD B, Vx (R105): hundreds, tens and ones at I, I + 1 and I + 2; I is not changed. -/
def execLdB (x : Reg) (s : State) : Result := withBytes s.i.toNat 3 s (.next (storeDigits (s.readV x) s))

/-- One round of the loop of R106: store `V[j]` at I and add 1 to I. -/
def storeOne (s : State) (j : Nat) : State := (s.writeByte s.i.toNat (s.readV (Fin.ofNat 16 j))).setI (s.i + 1)

/-- LD [I], Vx (R106): store V0 to Vx from I on, I advancing by one per register. -/
def execStore (x : Reg) (s : State) : Result :=
  withBytes s.i.toNat (x.val + 1) s (.next ((List.range (x.val + 1)).foldl storeOne s))

/-- One round of the loop of R107: load `V[j]` from I and add 1 to I. -/
def loadOne (s : State) (j : Nat) : State := (s.writeV (Fin.ofNat 16 j) (s.readByte s.i.toNat)).setI (s.i + 1)

/-- LD Vx, [I] (R107): load V0 to Vx from I on, I advancing by one per register. -/
def execLoad (x : Reg) (s : State) : Result :=
  withBytes s.i.toNat (x.val + 1) s (.next ((List.range (x.val + 1)).foldl loadOne s))

end Sys2Proof.Machine
end

