-- ==== Sys2Proof/Machine/TimersInput.lean ====
section
/-! DEFINITION. Timers, tone, keys and the key wait (spec/45_timers_input.md R113 to R124). -/

namespace Sys2Proof.Machine

/-- LD Vx, DT (R114). -/
def execLdVDt (x : Reg) (s : State) : Result := .next (s.writeV x s.dt)

/-- LD DT, Vx (R115): the accumulator is not reset. -/
def execLdDtV (x : Reg) (s : State) : Result := .next (s.setDt (s.readV x))

/-- LD ST, Vx (R116). -/
def execLdStV (x : Reg) (s : State) : Result := .next (s.setSt (s.readV x))

/-- Run `k` on the key that a register names; a value above 15 halts (R118, R119). -/
def withKey (v : Byte) (s : State) (k : Key → Result) : Result :=
  if h : v.toNat < 16 then k ⟨v.toNat, h⟩ else raiseHalt .keyIndexOutOfRange s

/-- SKP Vx (R118). -/
def execSkp (x : Reg) (s : State) : Result := withKey (s.readV x) s (fun k => .next (s.skipIf (s.keyDown k)))

/-- SKNP Vx (R119). -/
def execSknp (x : Reg) (s : State) : Result := withKey (s.readV x) s (fun k => .next (s.skipIf (!s.keyDown k)))

/-- LD Vx, K (R120): arm the wait; Vx is written when it resolves (R122). -/
def execLdVKey (x : Reg) (s : State) : Result := .next (s.arm x)

end Sys2Proof.Machine
end

