-- ==== Sys2Proof/Machine/Cycle.lean ====
section
/-! DEFINITION. The step cycle (spec/40_step_cycle.md R68 to R78). -/

namespace Sys2Proof.Machine

/-- Phases 4 and 5: fetch, advance PC, decode, execute (R74, R75). A fetch out of range halts with PC unchanged, an
unrecognized word halts with PC advanced (R131, R132). -/
def fetchExecute (s : State) : Result :=
  match s.fetch with
  | none => raiseHalt .memoryOutOfRange s
  | some w =>
    match decodeWord w with
    | none => raiseHalt .unrecognizedInstruction s.advancePc
    | some i => exec i s.advancePc

/-- The host operation `step(elapsed)` (R68 to R77): refused on a halted core and for a negative time, else time and
ticks, then the wait gate, then fetch, decode and execute. -/
def stepElapsed (e : Rat) (s : State) : Result :=
  if s.halted then .refused .stepAfterHalt
  else if wellFormedElapsed e then
    if s.waiting then .next (s.elapse e) else fetchExecute (s.elapse e)
  else .refused .negativeElapsed

/-- One host operation (R32). -/
def hostOperation (op : HostOp) (s : State) : Result :=
  match op with
  | .step e => stepElapsed e s
  | .setKeydown k down => .next (setKeydown k down s)

/-- The next operation of the host, `step(0)` where none is listed, and the operations after it (log entry 4). -/
def nextHostOp (s : State) : HostOp × List HostOp :=
  match s.host with
  | [] => (.step 0, [])
  | op :: rest => (op, rest)

/-- Perform the host's next operation. -/
def performNext (s : State) : Result := hostOperation (nextHostOp s).1 (s.setHost (nextHostOp s).2)

end Sys2Proof.Machine
end

