-- ==== Sys2Proof/Machine/Step.lean ====
section
/-! DEFINITION. The step of the machine: one host operation (spec/10_state.md R32, R33; log entry 4). -/

namespace Sys2Proof.Machine

/-- One transaction of the block: the host's next operation, `step(0)` where none is listed. -/
def step (s : State) : Host.Outcome State Fault Refusal := performNext s

/-- Whether a host operation runs a step of the core. -/
def runsStep : HostOp → Bool
  | .step e => wellFormedElapsed e
  | .setKeydown _ _ => false

/-- Where `withFetchWord` puts a word: at PC, or at 0x200 where no word fits at PC. -/
def fetchPlace (s : State) : Word := if s.pc.toNat + 1 < Config.memSize then s.pc else 0x0200#16

/-- `s` with the given instruction stored where the next step fetches, and that step the next thing to happen: not
halted, not waiting, and host operations that come before the next legal `step` dropped (log entry 3). -/
def State.withFetchWord (s : State) (nbits w : Nat) : State :=
  let word := BitVec.ofNat 16 (w % 2 ^ nbits)
  let a := (fetchPlace s).toNat
  { s with
    mem := (s.mem.write a (highByte word)).write (a + 1) (lowByte word)
    pc := fetchPlace s
    waiting := false
    halt := none
    host := s.host.dropWhile (fun op => !runsStep op) }

end Sys2Proof.Machine
end

