-- ==== Sys2Proof/Machine/Construct.lean ====
section
/-! DEFINITION. Construction, which is the core's reset (spec/70_reset_and_hazards.md R142 to R147). The random source is
given by the bytes known of it (log entry 5). The alternate-semantics flag is taken and ignored (R31; log entry 13). -/

namespace Sys2Proof.Machine

/-- `construct_image(image, start, rand, alt)`: the 4096 bytes verbatim, PC at `start` (R144); no core for an image of
another length (R146). -/
def constructImage (image : List Byte) (start : Word) (rand : List Byte) (_alt : Bool) : Option State :=
  if wellFormedImage image then some (State.constructed (Memory.ofBytes image) start rand) else none

/-- The 4096 bytes of the ROM variant: font, filler, ROM, filler (R145). -/
def romImage (rom : List Byte) (load : Nat) : List Byte :=
  Config.font ++ List.replicate (load - Config.font.length) Config.fill ++ rom ++
    List.replicate (Config.memSize - (load + rom.length)) Config.fill

/-- `construct_rom(rom, load, rand, alt)`: the ROM at its load address, PC there (R145); no core where the ROM or its
address is illegal (R146). -/
def constructRom (rom : List Byte) (load : Word) (rand : List Byte) (_alt : Bool) : Option State :=
  if wellFormedRom rom load then
    some (State.constructed (Memory.ofBytes (romImage rom load.toNat)) load rand)
  else none

end Sys2Proof.Machine
end

