-- ==== Sys2Proof/Safety.lean ====
section
/-! DEFINITION. The terms claims are stated in: the parts of the state, what is unchanged, the invariants that hold
between host operations (spec/10_state.md R36), and the control states (spec/45_timers_input.md R123). -/

namespace Sys2Proof.Machine

/-- The parts of the state, the model's own ones as `source` (random source) and `hostOps`. -/
inductive Part where
  | mem | v | i | pc | stack | dt | st | acc | fb | keys | wait | halt | source | hostOps
  deriving DecidableEq, Repr

/-- A part reads the same in two states, through the model's reads. -/
def sameIn (s t : State) : Part → Prop
  | .mem => ∀ a, t.readByte a = s.readByte a
  | .v => ∀ r, t.readV r = s.readV r
  | .i => t.i = s.i
  | .pc => t.pc = s.pc
  | .stack => t.stack = s.stack
  | .dt => t.dt = s.dt
  | .st => t.st = s.st
  | .acc => t.acc = s.acc
  | .fb => ∀ c r, t.pixel c r = s.pixel c r
  | .keys => ∀ k, t.keyDown k = s.keyDown k
  | .wait => t.waiting = s.waiting ∧ t.waitReg = s.waitReg
  | .halt => t.halt = s.halt
  | .source => t.randBytes = s.randBytes ∧ t.draws = s.draws
  | .hostOps => t.host = s.host

/-- Every part reads the same in the two states, except those listed. -/
def UnchangedBut (parts : List Part) (s t : State) : Prop := ∀ p, p ∉ parts → sameIn s t p

/-- Every register reads the same in the two states, except those listed. -/
def RegsUnchangedBut (regs : List Reg) (s t : State) : Prop := ∀ r, r ∉ regs → t.readV r = s.readV r

/-- Every byte of memory reads the same in the two states, except the `n` bytes from address `a` on. -/
def BytesUnchangedBut (a n : Nat) (s t : State) : Prop := ∀ b, b < a ∨ a + n ≤ b → t.readByte b = s.readByte b

/-- Only the listed registers differ, and no other part: the frame of an instruction that writes registers. -/
def OnlyRegs (regs : List Reg) (s t : State) : Prop := RegsUnchangedBut regs s t ∧ UnchangedBut [.v] s t

/-- The halt for the given reason is all that happened (R76). -/
def HaltsWith (r : HaltReason) (s t : State) : Prop := t.halt = some r ∧ UnchangedBut [.halt] s t

/-- What holds between any two host operations (R36), with the canonical form of memory. -/
structure State.Inv (s : State) : Prop where
  memory : s.mem.wf
  accNonneg : 0 ≤ s.acc
  accBelowTick : s.acc < Config.tick
  depth : s.stack.length ≤ Config.callStackDepth
  exclusive : ¬ (s.waiting = true ∧ s.halted = true)

/-- The bounds of R36 on the PC values that instructions produce. -/
structure State.PcInv (s : State) : Prop where
  pcBound : s.pc.toNat ≤ 0x10FE
  returnBound : ∀ a ∈ s.stack, a.toNat ≤ 0x1000

/-- RUNNING (R123): neither waiting nor halted. -/
def State.Running (s : State) : Prop := s.waiting = false ∧ s.halted = false

/-- Everything but memory is at the values of R35, with PC and the known random bytes as given. -/
structure AtReset (pc : Word) (rand : List Byte) (s : State) : Prop where
  v : ∀ r, s.readV r = 0xFF#8
  i : s.i = 0x00FF#16
  pcValue : s.pc = pc
  stack : s.stack = []
  dt : s.dt = 0
  st : s.st = 0
  acc : s.acc = 0
  fb : ∀ c r, s.pixel c r = false
  keys : ∀ k, s.keyDown k = false
  waiting : s.waiting = false
  waitReg : s.waitReg = 0
  halted : s.halted = false
  source : s.randBytes = rand

/-- The encoding part of an instruction's rule: every word `w` with `w & mask = pattern` is the instruction `build w`, whose
operands are fields of `w` (R56, R58, R59). -/
def EncodedBy (mask pattern : Word) (build : Word → Instr) : Prop :=
  ∀ w : Word, w &&& mask = pattern → decodeWord w = some (build w)

/-- Whether the sprite of `n` bytes at I, drawn at column `cx` and row `cy`, has a set bit on column `c` of row `r`: bit
`7 - j` of the byte for row `cy + q` falls on column `cx + j` (R110). -/
def spriteBit (s : State) (cx cy n c r : Nat) : Bool :=
  decide (cy ≤ r) && decide (r < cy + n) && decide (cx ≤ c) && decide (c < cx + 8) &&
    (s.readByte (s.i.toNat + (r - cy))).getLsbD (7 - (c - cx))

/-- The parts an instruction may write, by the rule of each part: every other part stays as it was. The halt state is not
among them, since `haltCondition` says exactly when it changes. -/
def mayWrite : Instr → List Part
  | .cls => [.fb]
  | .ret | .call _ => [.pc, .stack]
  | .jp _ | .jpV0 _ | .seK _ _ | .sneK _ _ | .seV _ _ | .sneV _ _ | .skp _ | .sknp _ => [.pc]
  | .ldK _ _ | .addK _ _ | .ldV _ _ | .orV _ _ | .andV _ _ | .xorV _ _ => [.v]
  | .addV _ _ | .subV _ _ | .shrV _ _ | .subnV _ _ | .shlV _ _ | .ldVDt _ => [.v]
  | .rnd _ _ => [.v, .source]
  | .drw _ _ _ => [.v, .fb]
  | .ldI _ | .addI _ | .ldF _ => [.i]
  | .ldB _ => [.mem]
  | .store _ => [.mem, .i]
  | .load _ => [.v, .i]
  | .ldVKey _ => [.wait]
  | .ldDtV _ => [.dt]
  | .ldStV _ => [.st]

/-- When an instruction halts, and why (R129): the condition of each reason, for the instructions that raise it. -/
def haltCondition (s : State) : HaltReason → Instr → Prop
  | .stackOverflow, .call _ => Config.callStackDepth ≤ s.stack.length
  | .stackUnderflow, .ret => s.stack = []
  | .memoryOutOfRange, .ldB _ => 0xFFF < s.i.toNat + 2
  | .memoryOutOfRange, .store x => 0xFFF < s.i.toNat + x.val
  | .memoryOutOfRange, .load x => 0xFFF < s.i.toNat + x.val
  | .memoryOutOfRange, .drw _ _ n => 1 ≤ n.val ∧ 0xFFF < s.i.toNat + n.val - 1
  | .keyIndexOutOfRange, .skp x => 15 < (s.readV x).toNat
  | .keyIndexOutOfRange, .sknp x => 15 < (s.readV x).toNat
  | .indexOverflow, .addI x => 0xFFFF < s.i.toNat + (s.readV x).toNat
  | _, _ => False

end Sys2Proof.Machine
end

