-- ==== Sys2Proof/Certificates/Slice0/Obligations.lean ====
section
/-! DEFINITION. The statements for the provers. `exec i s` is phase 5 alone: in `s` the ticks are taken and PC is already
past the instruction (spec/40_step_cycle.md R74, R75). -/

open Sys2Proof Sys2Proof.Machine

/-! ### Construction and reset (70_reset_and_hazards.md) -/

/-- R144: the image variant holds the 4096 bytes verbatim and starts at `start`; another length gives no core. A start of
0xFFF or more is accepted and halts at the first step. -/
def Obligations.ImageConstructionHoldsImageAndResetValues : Prop :=
  ∀ (image : List Byte) (start : Word) (rand : List Byte) (alt : Bool),
    (image.length ≠ 4096 → constructImage image start rand alt = none) ∧
    (image.length = 4096 → ∃ s, constructImage image start rand alt = some s ∧
      (∀ (a : Nat) (h : a < image.length), s.readByte a = image[a]) ∧ AtReset start rand s ∧
      (0xFFF ≤ start.toNat → ∀ e, 0 ≤ e → ∃ t, stepElapsed e s = .next t ∧ t.halt = some .memoryOutOfRange ∧
        UnchangedBut [.acc, .halt] s t))

/-- R145, R45: font, filler, ROM, filler, PC at the load address; no core for an illegal ROM. -/
def Obligations.RomConstructionLaysOutMemory : Prop :=
  ∀ (rom : List Byte) (load : Word) (rand : List Byte) (alt : Bool),
    (0x200 ≤ load.toNat ∧ load.toNat + rom.length ≤ 4096 →
      ∃ s, constructRom rom load rand alt = some s ∧ AtReset load rand s ∧ Config.font.length = 80 ∧
        (∀ a (h : a < Config.font.length), s.readByte a = Config.font[a]) ∧
        (∀ a, 80 ≤ a → a < load.toNat → s.readByte a = 0xFF#8) ∧
        (∀ j (h : j < rom.length), s.readByte (load.toNat + j) = rom[j]) ∧
        (∀ a, load.toNat + rom.length ≤ a → a < 4096 → s.readByte a = 0xFF#8)) ∧
    (¬ (0x200 ≤ load.toNat ∧ load.toNat + rom.length ≤ 4096) → constructRom rom load rand alt = none)

/-- R146: the three cases in which construction fails, and no other. -/
def Obligations.ConstructionFailsExactlyWhenIllegal : Prop :=
  ∀ (bytes : List Byte) (a : Word) (rand : List Byte) (alt : Bool),
    (constructImage bytes a rand alt = none ↔ bytes.length ≠ 4096) ∧
    (constructRom bytes a rand alt = none ↔ 4096 < a.toNat + bytes.length ∨ a.toNat < 0x200)

/-- The model's choice of reset (log entry 1): the reset state is the ROM core with an empty ROM at 0x200. -/
def Obligations.ResetIsTheEmptyRomCore : Prop :=
  ∀ alt : Bool, constructRom [] 0x0200#16 [] alt = some State.reset

/-- The reset state meets both invariants that every step keeps. -/
def Obligations.ResetMeetsTheInvariants : Prop := State.reset.Inv ∧ State.reset.PcInv

/-- Every constructed core, by either variant, meets the invariant that every step keeps (the bounds of R36, which the
spec derives). -/
def Obligations.EveryConstructedCoreMeetsTheInvariant : Prop :=
  ∀ (bytes : List Byte) (a : Word) (rand : List Byte) (alt : Bool) (s : State),
    constructImage bytes a rand alt = some s ∨ constructRom bytes a rand alt = some s → s.Inv

/-! ### Memory (20_memory.md) -/

/-- The canonical form of memory is the model's (log entry 1): two canonical memories that read the same at every address are the same data. -/
def Obligations.CanonicalMemoriesWithEqualReadsAreEqual : Prop :=
  ∀ m n : Memory, m.wf → n.wf → (∀ a, m.read a = n.read a) → m = n

/-- R40: the fetch is big-endian, and a fetch whose second byte does not exist halts with nothing changed. -/
def Obligations.FetchIsBigEndianOrHalts : Prop :=
  ∀ s : State,
    (s.pc.toNat + 1 < 4096 → ∃ w, s.fetch = some w ∧ ∀ j, j < 8 →
      w.getLsbD (8 + j) = (s.readByte s.pc.toNat).getLsbD j ∧ w.getLsbD j = (s.readByte (s.pc.toNat + 1)).getLsbD j) ∧
    (4096 ≤ s.pc.toNat + 1 → ∃ t, fetchExecute s = .next t ∧ HaltsWith .memoryOutOfRange s t)

/-- Bytes that a store put at PC are the instruction fetched next (an instance of R54, which the spec derives). -/
def Obligations.StoredBytesAreFetchedNext : Prop :=
  ∀ (s : State) (x : Reg), 1 ≤ x.val → s.i = s.pc → s.i.toNat + x.val ≤ 0xFFF →
    ∃ t, exec (.store x) s = .next t ∧ t.fetch = some (s.readV 0 ++ s.readV 1)

/-! ### Decoding and encoding (30_encoding.md) -/

/-- R58: no two rows select one word; the row a word selects decides its instruction; a word that selects none halts
after the fetch's PC advance and before any other effect. -/
def Obligations.DecodeSelectsTheOneMatchingRow : Prop :=
  ∀ w : Word,
    (∀ r ∈ opcodeTable, ∀ q ∈ opcodeTable, r.selects w = true → q.selects w = true → r = q) ∧
    (∀ r ∈ opcodeTable, w &&& r.mask = r.pattern → decodeWord w = some (r.build w)) ∧
    ((∀ r ∈ opcodeTable, w &&& r.mask ≠ r.pattern) → ∀ s : State, s.fetch = some w →
      ∃ t, fetchExecute s = .next t ∧ HaltsWith .unrecognizedInstruction (s.setPc (s.pc + 2)) t)

/-- Decoding an encoded instruction gives it back, as a word and as bytes with anything after them. -/
def Obligations.DecodeOfEncodeIsIdentity : Prop :=
  ∀ (i : Instr) (rest : List Byte), i.wellFormed = true →
    decodeWord (encode i) = some i ∧ decode (encodeBytes i ++ rest) = .ok (i, rest)

/-- Encoding a decoded instruction gives back the bytes read: every word has one meaning and no bit is dropped. -/
def Obligations.EncodeOfDecodeIsIdentity : Prop :=
  ∀ (bytes : List Byte) (i : Instr) (rest : List Byte), decode bytes = .ok (i, rest) → bytes = encodeBytes i ++ rest

/-- Exactly these words are unrecognized (the list of R61, which the spec derives from R58 to R60). -/
def Obligations.UnrecognizedWordsAreThoseListed : Prop :=
  ∀ w : Word, decodeWord w = none ↔
    (w.toNat / 4096 = 0x0 ∧ w ≠ 0x00E0#16 ∧ w ≠ 0x00EE#16) ∨
    (w.toNat / 4096 = 0x5 ∧ w.toNat % 16 ≠ 0) ∨
    (w.toNat / 4096 = 0x8 ∧ w.toNat % 16 ∈ [0x8, 0x9, 0xA, 0xB, 0xC, 0xD, 0xF]) ∨
    (w.toNat / 4096 = 0x9 ∧ w.toNat % 16 ≠ 0) ∨
    (w.toNat / 4096 = 0xE ∧ w.toNat % 256 ∉ [0x9E, 0xA1]) ∨
    (w.toNat / 4096 = 0xF ∧ w.toNat % 256 ∉ [0x07, 0x0A, 0x15, 0x18, 0x1E, 0x29, 0x33, 0x55, 0x65])

/-- Words of 95_test_vectors.md decode to the instructions they are given as there. -/
def Obligations.VectorWordsDecode : Prop :=
  decodeTableWord 16 0x00E0 = some .cls ∧ decodeTableWord 16 0x00EE = some .ret ∧
  decodeTableWord 16 0x1456 = some (.jp 0x456#12) ∧ decodeTableWord 16 0x4203 = some (.sneK 2 0x03#8) ∧
  decodeTableWord 16 0x9340 = some (.sneV 3 4) ∧ decodeTableWord 16 0x6AC6 = some (.ldK 10 0xC6#8) ∧
  decodeTableWord 16 0x8127 = some (.subnV 1 2) ∧ decodeTableWord 16 0xBFFF = some (.jpV0 0xFFF#12) ∧
  decodeTableWord 16 0xC30F = some (.rnd 3 0x0F#8) ∧ decodeTableWord 16 0xD01F = some (.drw 0 1 15) ∧
  decodeTableWord 16 0xE4A1 = some (.sknp 4) ∧ decodeTableWord 16 0xF729 = some (.ldF 7) ∧
  decodeTableWord 16 0x5341 = none ∧ decodeTableWord 16 0xFFFF = none

/-! ### The step cycle (40_step_cycle.md) -/

/-- When the host's next operation (log entry 4) is a legal `step(e)` on a running core and the bytes at PC decode to an
instruction, the step is that instruction's meaning on the state with the time elapsed and PC past its two bytes (R74, R75). -/
def Obligations.StepRunsTheDecodedInstruction : Prop :=
  ∀ (s : State) (e : Rat) (rest : List HostOp) (i : Instr) (tail : List Byte), s.Running → 0 ≤ e →
    nextHostOp s = (.step e, rest) → s.pc.toNat + 1 < 4096 →
    decode (s.readByte s.pc.toNat :: s.readByte (s.pc.toNat + 1) :: tail) = .ok (i, tail) →
    step s = exec i (((s.setHost rest).elapse e).setPc (s.pc + 2))

/-- One transition of the model is the host's next operation, and `step(0)` where none is listed (log entry 4, the model's
choice). -/
def Obligations.StepPerformsTheNextHostOperation : Prop :=
  ∀ s : State,
    (∀ e rest, s.host = .step e :: rest → step s = stepElapsed e (s.setHost rest)) ∧
    (∀ k down rest, s.host = .setKeydown k down :: rest → step s = .next (setKeydown k down (s.setHost rest))) ∧
    (s.host = [] → step s = stepElapsed 0 s)

/-- R68: `step(elapsed)` is refused on a halted core and for a negative elapsed time, and defined otherwise. -/
def Obligations.StepIsRefusedExactlyAfterHaltOrForNegativeTime : Prop :=
  ∀ (s : State) (e : Rat),
    (s.halted = true → stepElapsed e s = .refused .stepAfterHalt) ∧
    (s.halted = false → e < 0 → stepElapsed e s = .refused .negativeElapsed) ∧
    (s.halted = false → 0 ≤ e → ∃ t, stepElapsed e s = .next t)

/-- R69, R70, R71: a legal step of a core that is not halted, waiting or not, first adds the elapsed time to the accumulator
and then runs the loop: below a tick it stops, else it takes one tick from both timers, each saturating at 0, and goes on. -/
def Obligations.ElapsedTimeRunsTheTickLoop : Prop :=
  (∀ (s : State) (e : Rat), s.halted = false → 0 ≤ e →
    stepElapsed e s = if s.waiting then .next (s.elapse e) else fetchExecute (s.elapse e)) ∧
  (∀ (s : State) (e : Rat), (s.elapse e).clock = Clock.elapse ⟨s.dt, s.st, s.acc + e⟩ 0) ∧
  (∀ c : Clock,
    (c.acc < 1 / 60 → c.elapse 0 = c) ∧
    (1 / 60 ≤ c.acc → c.elapse 0 = Clock.elapse ⟨satdec c.dt, satdec c.st, c.acc - 1 / 60⟩ 0)) ∧
  (∀ t : Byte, (satdec t).toNat = if 0 < t.toNat then t.toNat - 1 else 0)

/-- The closed form of phases 1 and 2, and its independence of how the time is split between calls (R72, which the spec
derives from R69, R70 and R71). -/
def Obligations.ElapsedTimeHasItsClosedForm : Prop :=
  (∀ (s : State) (e : Rat), 0 ≤ s.acc + e →
    (s.elapse e).acc = s.acc + e - (⌊60 * (s.acc + e)⌋ : Rat) / 60 ∧
    0 ≤ (s.elapse e).acc ∧ (s.elapse e).acc < 1 / 60 ∧
    (s.elapse e).dt.toNat = s.dt.toNat - ⌊60 * (s.acc + e)⌋.toNat ∧
    (s.elapse e).st.toNat = s.st.toNat - ⌊60 * (s.acc + e)⌋.toNat ∧
    UnchangedBut [.dt, .st, .acc] s (s.elapse e)) ∧
  (∀ (s : State) (e f : Rat), 0 ≤ s.acc → 0 ≤ e → 0 ≤ f → (s.elapse e).elapse f = s.elapse (e + f))

/-- R73: a step of a waiting core takes its ticks, returns true and does nothing else. -/
def Obligations.WaitingStepOnlyKeepsTime : Prop :=
  ∀ (s : State) (e : Rat), s.waiting = true → s.halted = false → 0 ≤ e →
    ∃ t, stepElapsed e s = .next t ∧ t.continues = true ∧ UnchangedBut [.dt, .st, .acc] s t ∧
      t.clock = s.clock.elapse e

/-- R121, R122: `set_keydown` ignores an index outside 0 to 15, else records the key and resolves an armed wait exactly
on the release of a key recorded as down. -/
def Obligations.SetKeydownRecordsAndResolves : Prop :=
  ∀ (s t : State) (k : Int) (down : Bool), t = setKeydown k down s →
    ((k < 0 ∨ 15 < k) → t = s) ∧
    (∀ key : Key, k = key.val →
      t.keyDown key = down ∧ (∀ j, j ≠ key → t.keyDown j = s.keyDown j) ∧
      (s.waiting = true ∧ s.keyDown key = true ∧ down = false →
        t.waiting = false ∧ t.waitReg = s.waitReg ∧ (t.readV s.waitReg).toNat = key.val ∧
        RegsUnchangedBut [s.waitReg] s t ∧ UnchangedBut [.v, .keys, .wait] s t) ∧
      (¬ (s.waiting = true ∧ s.keyDown key = true ∧ down = false) → UnchangedBut [.keys] s t))

/-- A wait ends only by a qualifying release: no step and no other operation clears the flag. -/
def Obligations.WaitEndsOnlyByQualifyingRelease : Prop :=
  ∀ s t : State, step s = .next t → s.waiting = true → t.waiting = false →
    ∃ (key : Key) (rest : List HostOp), s.host = .setKeydown (key.val : Int) false :: rest ∧ s.keyDown key = true ∧
      (t.readV s.waitReg).toNat = key.val

/-- R112, R117: the two host queries. -/
def Obligations.QueriesReadPixelAndTone : Prop :=
  ∀ s : State,
    (∀ c r : Int, s.getDisplaySpot c r = true ↔
      0 ≤ c ∧ c < 64 ∧ 0 ≤ r ∧ r < 32 ∧ s.pixel c.toNat r.toNat = true) ∧
    (s.isToneOn = true ↔ s.st.toNat ≠ 0)

/-! ### Control flow (41_control_flow.md) -/

/-- R83 to R86: the four register skips add 2 to PC exactly when their condition holds, and change nothing else. -/
def Obligations.RegisterSkipsAdvancePcWhenTheirConditionHolds : Prop :=
  EncodedBy 0xF000#16 0x3000#16 (fun w => .seK (fieldX w) (fieldK w)) ∧
  EncodedBy 0xF000#16 0x4000#16 (fun w => .sneK (fieldX w) (fieldK w)) ∧
  EncodedBy 0xF00F#16 0x5000#16 (fun w => .seV (fieldX w) (fieldY w)) ∧
  EncodedBy 0xF00F#16 0x9000#16 (fun w => .sneV (fieldX w) (fieldY w)) ∧
  ∀ (s : State) (x y : Reg) (k : Byte),
    (∃ t, exec (.seK x k) s = .next t ∧ UnchangedBut [.pc] s t ∧
      (s.readV x = k → t.pc.toNat = (s.pc.toNat + 2) % 65536) ∧ (s.readV x ≠ k → t.pc = s.pc)) ∧
    (∃ t, exec (.sneK x k) s = .next t ∧ UnchangedBut [.pc] s t ∧
      (s.readV x ≠ k → t.pc.toNat = (s.pc.toNat + 2) % 65536) ∧ (s.readV x = k → t.pc = s.pc)) ∧
    (∃ t, exec (.seV x y) s = .next t ∧ UnchangedBut [.pc] s t ∧
      (s.readV x = s.readV y → t.pc.toNat = (s.pc.toNat + 2) % 65536) ∧ (s.readV x ≠ s.readV y → t.pc = s.pc)) ∧
    (∃ t, exec (.sneV x y) s = .next t ∧ UnchangedBut [.pc] s t ∧
      (s.readV x ≠ s.readV y → t.pc.toNat = (s.pc.toNat + 2) % 65536) ∧ (s.readV x = s.readV y → t.pc = s.pc))

/-- R81, R87: the jumps set PC to the address, and to the address plus V0 with no reduction, and change nothing else. An
offset jump to 0xFFF or above halts at the next fetch. -/
def Obligations.JumpsSetPcToTheirTarget : Prop :=
  EncodedBy 0xF000#16 0x1000#16 (fun w => .jp (fieldAddr w)) ∧
  EncodedBy 0xF000#16 0xB000#16 (fun w => .jpV0 (fieldAddr w)) ∧
  ∀ (s : State) (addr : BitVec 12),
    (∃ t, exec (.jp addr) s = .next t ∧ t.pc.toNat = addr.toNat ∧ UnchangedBut [.pc] s t) ∧
    (∃ t, exec (.jpV0 addr) s = .next t ∧ t.pc.toNat = addr.toNat + (s.readV 0).toNat ∧ UnchangedBut [.pc] s t ∧
      (0xFFF ≤ addr.toNat + (s.readV 0).toNat → ∃ u, fetchExecute t = .next u ∧ HaltsWith .memoryOutOfRange t u))

/-- R82: CALL pushes the address after it and jumps; with 32 return addresses on the stack it halts. -/
def Obligations.CallPushesReturnAddressOrHalts : Prop :=
  EncodedBy 0xF000#16 0x2000#16 (fun w => .call (fieldAddr w)) ∧
  ∀ (s : State) (addr : BitVec 12),
    (s.stack.length < 32 → ∃ t, exec (.call addr) s = .next t ∧ t.stack = s.pc :: s.stack ∧
      t.pc.toNat = addr.toNat ∧ UnchangedBut [.pc, .stack] s t) ∧
    (s.stack.length = 32 → ∃ t, exec (.call addr) s = .next t ∧ HaltsWith .stackOverflow s t)

/-- R80: RET pops the newest return address into PC; with an empty stack it halts. -/
def Obligations.ReturnPopsIntoPcOrHalts : Prop :=
  EncodedBy 0xFFFF#16 0x00EE#16 (fun _ => .ret) ∧
  ∀ s : State,
    (∀ a rest, s.stack = a :: rest → ∃ t, exec .ret s = .next t ∧ t.pc = a ∧ t.stack = rest ∧
      UnchangedBut [.pc, .stack] s t) ∧
    (s.stack = [] → ∃ t, exec .ret s = .next t ∧ HaltsWith .stackUnderflow s t)

/-- A CALL that does not overflow, then a RET wherever the subroutine left PC and the other state: PC is the address after
the CALL and the stack is as before it. -/
def Obligations.CallThenReturnRestoresPcAndStack : Prop :=
  ∀ (s t t' : State) (addr : BitVec 12), s.stack.length < 32 → exec (.call addr) s = .next t → t'.stack = t.stack →
    ∃ u, exec .ret t' = .next u ∧ u.pc = s.pc ∧ u.stack = s.stack ∧ UnchangedBut [.pc, .stack] t' u

/-! ### Loads, logic, arithmetic, random (42_arithmetic.md) -/

/-- R89 to R94: loads, add immediate, copy and the logic operations write Vx and nothing else, VF among the rest. -/
def Obligations.LoadsAndLogicWriteTheirRegisterOnly : Prop :=
  EncodedBy 0xF000#16 0x6000#16 (fun w => .ldK (fieldX w) (fieldK w)) ∧
  EncodedBy 0xF000#16 0x7000#16 (fun w => .addK (fieldX w) (fieldK w)) ∧
  EncodedBy 0xF00F#16 0x8000#16 (fun w => .ldV (fieldX w) (fieldY w)) ∧
  EncodedBy 0xF00F#16 0x8001#16 (fun w => .orV (fieldX w) (fieldY w)) ∧
  EncodedBy 0xF00F#16 0x8002#16 (fun w => .andV (fieldX w) (fieldY w)) ∧
  EncodedBy 0xF00F#16 0x8003#16 (fun w => .xorV (fieldX w) (fieldY w)) ∧
  ∀ (s : State) (x y : Reg) (k : Byte),
    (∃ t, exec (.ldK x k) s = .next t ∧ t.readV x = k ∧ OnlyRegs [x] s t) ∧
    (∃ t, exec (.addK x k) s = .next t ∧ (t.readV x).toNat = ((s.readV x).toNat + k.toNat) % 256 ∧ OnlyRegs [x] s t) ∧
    (∃ t, exec (.ldV x y) s = .next t ∧ t.readV x = s.readV y ∧ OnlyRegs [x] s t) ∧
    (∃ t, exec (.orV x y) s = .next t ∧
      (∀ j, (t.readV x).getLsbD j = ((s.readV x).getLsbD j || (s.readV y).getLsbD j)) ∧ OnlyRegs [x] s t) ∧
    (∃ t, exec (.andV x y) s = .next t ∧
      (∀ j, (t.readV x).getLsbD j = ((s.readV x).getLsbD j && (s.readV y).getLsbD j)) ∧ OnlyRegs [x] s t) ∧
    (∃ t, exec (.xorV x y) s = .next t ∧
      (∀ j, (t.readV x).getLsbD j = ((s.readV x).getLsbD j ^^ (s.readV y).getLsbD j)) ∧ OnlyRegs [x] s t)

/-- R95: add with carry; with x = F the carry is what remains in VF. -/
def Obligations.AddSetsCarryLast : Prop :=
  EncodedBy 0xF00F#16 0x8004#16 (fun w => .addV (fieldX w) (fieldY w)) ∧
  ∀ (s : State) (x y : Reg), ∃ t, exec (.addV x y) s = .next t ∧
    (t.readV VF).toNat = (if 255 < (s.readV x).toNat + (s.readV y).toNat then 1 else 0) ∧
    (x ≠ VF → (t.readV x).toNat = ((s.readV x).toNat + (s.readV y).toNat) % 256) ∧ OnlyRegs [x, VF] s t

/-- R96: subtract; VF is 1 exactly when there is no borrow. -/
def Obligations.SubtractSetsNoBorrowLast : Prop :=
  EncodedBy 0xF00F#16 0x8005#16 (fun w => .subV (fieldX w) (fieldY w)) ∧
  ∀ (s : State) (x y : Reg), ∃ t, exec (.subV x y) s = .next t ∧
    (t.readV VF).toNat = (if (s.readV y).toNat ≤ (s.readV x).toNat then 1 else 0) ∧
    (x ≠ VF → (t.readV x).toNat = ((s.readV x).toNat + 256 - (s.readV y).toNat) % 256) ∧ OnlyRegs [x, VF] s t

/-- R98: reversed subtract; VF is 1 exactly when there is no borrow. -/
def Obligations.ReversedSubtractSetsNoBorrowLast : Prop :=
  EncodedBy 0xF00F#16 0x8007#16 (fun w => .subnV (fieldX w) (fieldY w)) ∧
  ∀ (s : State) (x y : Reg), ∃ t, exec (.subnV x y) s = .next t ∧
    (t.readV VF).toNat = (if (s.readV x).toNat ≤ (s.readV y).toNat then 1 else 0) ∧
    (x ≠ VF → (t.readV x).toNat = ((s.readV y).toNat + 256 - (s.readV x).toNat) % 256) ∧ OnlyRegs [x, VF] s t

/-- R97: shift right by one from Vy; VF is bit 0 of Vy before the shift. -/
def Obligations.ShiftRightTakesItsOperandFromVy : Prop :=
  EncodedBy 0xF00F#16 0x8006#16 (fun w => .shrV (fieldX w) (fieldY w)) ∧
  ∀ (s : State) (x y : Reg), ∃ t, exec (.shrV x y) s = .next t ∧
    (t.readV VF).toNat = (s.readV y).toNat % 2 ∧
    (x ≠ VF → (t.readV x).toNat = (s.readV y).toNat / 2) ∧ OnlyRegs [x, VF] s t

/-- R99: shift left by one from Vy; VF is bit 7 of Vy before the shift. -/
def Obligations.ShiftLeftTakesItsOperandFromVy : Prop :=
  EncodedBy 0xF00F#16 0x800E#16 (fun w => .shlV (fieldX w) (fieldY w)) ∧
  ∀ (s : State) (x y : Reg), ∃ t, exec (.shlV x y) s = .next t ∧
    (t.readV VF).toNat = (s.readV y).toNat / 128 ∧
    (x ≠ VF → (t.readV x).toNat = (2 * (s.readV y).toNat) % 256) ∧ OnlyRegs [x, VF] s t

/-- One draw, whatever the mask; the result is the byte drawn AND the mask. The clause on a known next byte holds for every
byte, as R100 asks. The clause on no known byte, where the draw is the free value `Config.randByte` at the count of draws
and the list stays empty, is the model's choice (log entry 5). -/
def Obligations.RandomDrawsOneByteAndMasksIt : Prop :=
  EncodedBy 0xF000#16 0xC000#16 (fun w => .rnd (fieldX w) (fieldK w)) ∧
  ∀ (s : State) (x : Reg) (k : Byte),
    (∀ (r : Byte) (rest : List Byte), s.randBytes = r :: rest → ∃ t, exec (.rnd x k) s = .next t ∧
      t.readV x = r &&& k ∧ t.randBytes = rest ∧ t.draws = s.draws + 1 ∧ RegsUnchangedBut [x] s t ∧
      UnchangedBut [.v, .source] s t) ∧
    (s.randBytes = [] → ∃ t, exec (.rnd x k) s = .next t ∧
      t.readV x = Config.randByte s.draws &&& k ∧ t.randBytes = [] ∧ t.draws = s.draws + 1 ∧
      RegsUnchangedBut [x] s t ∧ UnchangedBut [.v, .source] s t)

/-! ### Index register and memory (43_index_memory.md) -/

/-- R102, R104: set the index register to an address, and to the glyph address of a register's low nibble. -/
def Obligations.IndexLoadsSetI : Prop :=
  EncodedBy 0xF000#16 0xA000#16 (fun w => .ldI (fieldAddr w)) ∧
  EncodedBy 0xF0FF#16 0xF029#16 (fun w => .ldF (fieldX w)) ∧
  ∀ (s : State) (x : Reg) (addr : BitVec 12),
    (∃ t, exec (.ldI addr) s = .next t ∧ t.i.toNat = addr.toNat ∧ UnchangedBut [.i] s t) ∧
    (∃ t, exec (.ldF x) s = .next t ∧ t.i.toNat = 5 * ((s.readV x).toNat % 16) ∧ UnchangedBut [.i] s t)

/-- R103: add a register to the index register; a sum above 0xFFFF halts, and VF is never written. -/
def Obligations.IndexAddOrOverflowHalt : Prop :=
  EncodedBy 0xF0FF#16 0xF01E#16 (fun w => .addI (fieldX w)) ∧
  ∀ (s : State) (x : Reg),
    (s.i.toNat + (s.readV x).toNat ≤ 0xFFFF → ∃ t, exec (.addI x) s = .next t ∧
      t.i.toNat = s.i.toNat + (s.readV x).toNat ∧ UnchangedBut [.i] s t) ∧
    (0xFFFF < s.i.toNat + (s.readV x).toNat → ∃ t, exec (.addI x) s = .next t ∧ HaltsWith .indexOverflow s t)

/-- R105: the three decimal digits of Vx at I, I + 1 and I + 2, I unchanged; out of range nothing is written. -/
def Obligations.DecimalDigitsAreStoredOrHalt : Prop :=
  EncodedBy 0xF0FF#16 0xF033#16 (fun w => .ldB (fieldX w)) ∧
  ∀ (s : State) (x : Reg),
    (s.i.toNat + 2 ≤ 0xFFF → ∃ t, exec (.ldB x) s = .next t ∧
      (t.readByte s.i.toNat).toNat = (s.readV x).toNat / 100 ∧
      (t.readByte (s.i.toNat + 1)).toNat = (s.readV x).toNat / 10 % 10 ∧
      (t.readByte (s.i.toNat + 2)).toNat = (s.readV x).toNat % 10 ∧
      BytesUnchangedBut s.i.toNat 3 s t ∧ UnchangedBut [.mem] s t) ∧
    (0xFFF < s.i.toNat + 2 → ∃ t, exec (.ldB x) s = .next t ∧ HaltsWith .memoryOutOfRange s t)

/-- R106: V0 to Vx are stored from I on and I moves past them; out of range nothing is written. -/
def Obligations.BulkStoreWritesRegistersOrHalts : Prop :=
  EncodedBy 0xF0FF#16 0xF055#16 (fun w => .store (fieldX w)) ∧
  ∀ (s : State) (x : Reg),
    (s.i.toNat + x.val ≤ 0xFFF → ∃ t, exec (.store x) s = .next t ∧
      (∀ j : Reg, j.val ≤ x.val → t.readByte (s.i.toNat + j.val) = s.readV j) ∧
      t.i.toNat = s.i.toNat + x.val + 1 ∧
      BytesUnchangedBut s.i.toNat (x.val + 1) s t ∧ UnchangedBut [.mem, .i] s t) ∧
    (0xFFF < s.i.toNat + x.val → ∃ t, exec (.store x) s = .next t ∧ HaltsWith .memoryOutOfRange s t)

/-- R107: V0 to Vx are loaded from I on and I moves past them; out of range no register changes. -/
def Obligations.BulkLoadReadsMemoryOrHalts : Prop :=
  EncodedBy 0xF0FF#16 0xF065#16 (fun w => .load (fieldX w)) ∧
  ∀ (s : State) (x : Reg),
    (s.i.toNat + x.val ≤ 0xFFF → ∃ t, exec (.load x) s = .next t ∧
      (∀ j : Reg, j.val ≤ x.val → t.readV j = s.readByte (s.i.toNat + j.val)) ∧
      (∀ j : Reg, x.val < j.val → t.readV j = s.readV j) ∧
      t.i.toNat = s.i.toNat + x.val + 1 ∧ UnchangedBut [.v, .i] s t) ∧
    (0xFFF < s.i.toNat + x.val → ∃ t, exec (.load x) s = .next t ∧ HaltsWith .memoryOutOfRange s t)

/-! ### Display (44_display.md) -/

/-- R109: CLS clears every pixel and changes nothing else. -/
def Obligations.ClearZeroesEveryPixel : Prop :=
  EncodedBy 0xFFFF#16 0x00E0#16 (fun _ => .cls) ∧
  ∀ s : State, ∃ t, exec .cls s = .next t ∧ (∀ c r, t.pixel c r = false) ∧ UnchangedBut [.fb] s t

/-- R110: the loop over rows and bits is, pixel by pixel, an XOR with the clipped sprite, and VF says whether a set pixel
was cleared. Out of range nothing is drawn. -/
def Obligations.DrawXorsTheClippedSprite : Prop :=
  EncodedBy 0xF000#16 0xD000#16 (fun w => .drw (fieldX w) (fieldY w) (fieldN w)) ∧
  ∀ (s : State) (x y : Reg) (n : Fin 16),
    (n.val = 0 ∨ s.i.toNat + n.val - 1 ≤ 0xFFF → ∃ t, exec (.drw x y n) s = .next t ∧
      (∀ c r, c < 64 → r < 32 →
        t.pixel c r = (s.pixel c r ^^ spriteBit s (s.readV x).toNat (s.readV y).toNat n.val c r)) ∧
      ((∃ c r, c < 64 ∧ r < 32 ∧ s.pixel c r = true ∧
        spriteBit s (s.readV x).toNat (s.readV y).toNat n.val c r = true) → (t.readV VF).toNat = 1) ∧
      (¬ (∃ c r, c < 64 ∧ r < 32 ∧ s.pixel c r = true ∧
        spriteBit s (s.readV x).toNat (s.readV y).toNat n.val c r = true) → (t.readV VF).toNat = 0) ∧
      RegsUnchangedBut [VF] s t ∧ UnchangedBut [.v, .fb] s t) ∧
    (1 ≤ n.val → 0xFFF < s.i.toNat + n.val - 1 → ∃ t, exec (.drw x y n) s = .next t ∧
      HaltsWith .memoryOutOfRange s t)

/-- A second draw of the same sprite at the same coordinates restores every pixel, and gives VF = 1 exactly when a visible
set bit of the sprite fell on a pixel that was 0 before the first (R111, which the spec derives from R110). -/
def Obligations.DrawingTwiceRestoresTheScreen : Prop :=
  ∀ (s t t' u : State) (x y x' y' : Reg) (n : Fin 16), (n.val = 0 ∨ s.i.toNat + n.val - 1 ≤ 0xFFF) →
    exec (.drw x y n) s = .next t →
    (∀ c r, t'.pixel c r = t.pixel c r) → t'.i = s.i → t'.readV x' = s.readV x → t'.readV y' = s.readV y →
    (∀ q, q < n.val → t'.readByte (s.i.toNat + q) = s.readByte (s.i.toNat + q)) →
    exec (.drw x' y' n) t' = .next u →
    (∀ c r, u.pixel c r = s.pixel c r) ∧
    ((u.readV VF).toNat = 1 ↔ ∃ c r, c < 64 ∧ r < 32 ∧ s.pixel c r = false ∧
      spriteBit s (s.readV x).toNat (s.readV y).toNat n.val c r = true)

/-! ### Timers and keys (45_timers_input.md) -/

/-- R114 to R116: the timer instructions move a byte between a register and a timer and change nothing else, the
accumulator included; the tone follows ST. A step that reads the delay timer reads it after the step's own ticks. -/
def Obligations.TimerInstructionsMoveOneByte : Prop :=
  EncodedBy 0xF0FF#16 0xF007#16 (fun w => .ldVDt (fieldX w)) ∧
  EncodedBy 0xF0FF#16 0xF015#16 (fun w => .ldDtV (fieldX w)) ∧
  EncodedBy 0xF0FF#16 0xF018#16 (fun w => .ldStV (fieldX w)) ∧
  ∀ (s : State) (x : Reg),
    (∃ t, exec (.ldVDt x) s = .next t ∧ t.readV x = s.dt ∧ OnlyRegs [x] s t) ∧
    (∀ e w, s.Running → 0 ≤ e → s.fetch = some w → decodeWord w = some (.ldVDt x) →
      ∃ t, stepElapsed e s = .next t ∧ t.readV x = (s.clock.elapse e).dt) ∧
    (∃ t, exec (.ldDtV x) s = .next t ∧ t.dt = s.readV x ∧ UnchangedBut [.dt] s t) ∧
    (∃ t, exec (.ldStV x) s = .next t ∧ t.st = s.readV x ∧ UnchangedBut [.st] s t ∧
      (t.isToneOn = true ↔ (s.readV x).toNat ≠ 0))

/-- R118, R119: the key skips read the level of the key that Vx names; a value above 15 halts. -/
def Obligations.KeySkipsReadTheKeyOrHalt : Prop :=
  EncodedBy 0xF0FF#16 0xE09E#16 (fun w => .skp (fieldX w)) ∧
  EncodedBy 0xF0FF#16 0xE0A1#16 (fun w => .sknp (fieldX w)) ∧
  ∀ (s : State) (x : Reg),
    (∀ key : Key, (s.readV x).toNat = key.val →
      (∃ t, exec (.skp x) s = .next t ∧ UnchangedBut [.pc] s t ∧
        (s.keyDown key = true → t.pc.toNat = (s.pc.toNat + 2) % 65536) ∧ (s.keyDown key = false → t.pc = s.pc)) ∧
      (∃ t, exec (.sknp x) s = .next t ∧ UnchangedBut [.pc] s t ∧
        (s.keyDown key = false → t.pc.toNat = (s.pc.toNat + 2) % 65536) ∧ (s.keyDown key = true → t.pc = s.pc))) ∧
    (15 < (s.readV x).toNat →
      (∃ t, exec (.skp x) s = .next t ∧ HaltsWith .keyIndexOutOfRange s t) ∧
      (∃ t, exec (.sknp x) s = .next t ∧ HaltsWith .keyIndexOutOfRange s t))

/-- R120: the wait is armed for Vx, whatever keys are held, and nothing else changes: Vx is not written. -/
def Obligations.KeyWaitArmsWithoutWriting : Prop :=
  EncodedBy 0xF0FF#16 0xF00A#16 (fun w => .ldVKey (fieldX w)) ∧
  ∀ (s : State) (x : Reg), ∃ t, exec (.ldVKey x) s = .next t ∧ t.waiting = true ∧ t.waitReg = x ∧
    UnchangedBut [.wait] s t

/-! ### The whole machine -/

/-- The invariant of R36, which the spec derives, and the canonical form of memory, which is the model's choice (log entry
1), are kept by every step, from every state that has them. -/
def Obligations.EveryStepKeepsTheInvariant : Prop := ∀ s t : State, s.Inv → step s = .next t → t.Inv

/-- The PC bounds of R36, which the spec derives, are kept by every step: PC stays at most 0x10FE and return addresses at
most 0x1000. -/
def Obligations.EveryStepKeepsThePcBounds : Prop := ∀ s t : State, s.PcInv → step s = .next t → t.PcInv

/-- No instruction stops without a next state, and an instruction halts for a reason exactly when R129 says so. -/
def Obligations.InstructionsHaltExactlyUnderTheirConditions : Prop :=
  ∀ (i : Instr) (s : State), s.halt = none → ∃ t, exec i s = .next t ∧
    (∀ r, t.halt = some r ↔ haltCondition s r i)

/-- A halting instruction does nothing but record the halt, as data and not only as reads. -/
def Obligations.HaltingInstructionChangesNothingElse : Prop :=
  ∀ (i : Instr) (s t : State) (r : HaltReason), s.halt = none → exec i s = .next t → t.halt = some r →
    t = { s with halt := some r } ∧ t.continues = false

/-- R76: what a halting step leaves. A fetch out of range leaves the ticks of the step; every other halt leaves the ticks
and PC past the fetched word; nothing else changes. The step returns `false`, and any other returns `true` (R77). -/
def Obligations.HaltingStepLeavesOnlyTicksAndFetch : Prop :=
  ∀ (s t : State) (e : Rat), s.halted = false → stepElapsed e s = .next t →
    (t.halt = none → t.continues = true) ∧
    (∀ r, t.halt = some r → t.continues = false ∧
      (4096 ≤ s.pc.toNat + 1 → r = .memoryOutOfRange ∧ t = { s.elapse e with halt := some r }) ∧
      (s.pc.toNat + 1 < 4096 → t = { s.elapse e with pc := s.pc + 2, halt := some r }))

/-- A halt is permanent, and on a halted core that meets the invariant an operation changes the key states only. -/
def Obligations.HaltIsPermanent : Prop :=
  ∀ s t : State, s.halted = true → step s = .next t →
    t.halt = s.halt ∧ (s.Inv → UnchangedBut [.keys, .hostOps] s t)

/-- Every part of the state changes only by the instructions that the part's own rule names. -/
def Obligations.InstructionsWriteOnlyTheirParts : Prop :=
  ∀ (i : Instr) (s t : State), exec i s = .next t → UnchangedBut (.halt :: mayWrite i) s t

/-- No instruction reads the accumulator, only LD ST touches ST, only the key skips read the key states, and only LD DT
and LD Vx, DT touch DT: a change there changes nothing else of what an instruction does. -/
def Obligations.InstructionsDoNotReadHiddenState : Prop :=
  ∀ (i : Instr) (s t : State), exec i s = .next t →
    (∀ a : Rat, exec i { s with acc := a } = .next { t with acc := a }) ∧
    (∀ w : Byte, (∀ x, i ≠ .ldStV x) → exec i { s with st := w } = .next { t with st := w }) ∧
    (∀ w : Byte, (∀ x, i ≠ .ldDtV x ∧ i ≠ .ldVDt x) → exec i { s with dt := w } = .next { t with dt := w }) ∧
    (∀ ks : Vector Bool 16, (∀ x, i ≠ .skp x ∧ i ≠ .sknp x) →
      exec i { s with keys := ks } = .next { t with keys := ks })

/-- The model's program load (log entry 3): the next step of a state that `withFetchWord` loaded with an instruction runs
exactly that instruction. -/
def Obligations.LoadedWordRunsNext : Prop :=
  ∀ (s : State) (w : Nat) (i : Instr), decodeTableWord 16 w = some i →
    ∃ (e : Rat) (rest : List HostOp), 0 ≤ e ∧ nextHostOp (s.withFetchWord 16 w) = (.step e, rest) ∧
      step (s.withFetchWord 16 w) =
        exec i ((((s.withFetchWord 16 w).setHost rest).elapse e).setPc ((s.withFetchWord 16 w).pc + 2))
end

