-- ==== Sys2Proof/Laws/Decode.lean ====
section
/-! SUPPORT. Words as four nibbles: what each mask of the opcode table compares, and what each field reads. -/

namespace Sys2Proof

/-- A word from its nibbles, the most significant first. -/
def nib (a b c d : BitVec 4) : Word := a ++ b ++ c ++ d

theorem nib_getLsbD (a b c d : BitVec 4) (i : Nat) :
    (nib a b c d).getLsbD i =
      if i < 4 then d.getLsbD i else if i < 8 then c.getLsbD (i - 4) else if i < 12 then b.getLsbD (i - 8)
      else a.getLsbD (i - 12) := by
  simp only [nib, BitVec.getLsbD_append]
  by_cases h0 : i < 4
  · simp [h0]
  · by_cases h1 : i < 8
    · simp [h0, h1, show i - 4 < 4 by omega]
    · by_cases h2 : i < 12
      · simp [h0, h1, h2, show ¬ i - 4 < 4 by omega, show i - 4 - 4 = i - 8 by omega, show i - 8 < 4 by omega]
      · simp [h0, h1, h2, show ¬ i - 4 < 4 by omega, show ¬ i - 4 - 4 < 4 by omega, show i - 4 - 4 - 4 = i - 12 by omega]

/-- Every word is four nibbles. -/
theorem eq_nib (w : Word) :
    w = nib (w.extractLsb' 12 4) (w.extractLsb' 8 4) (w.extractLsb' 4 4) (w.extractLsb' 0 4) := by
  apply BitVec.eq_of_getLsbD_eq
  intro i hi
  rw [nib_getLsbD]
  simp only [BitVec.getLsbD_extractLsb']
  split
  · simp [*]
  · split
    · rw [show 4 + (i - 4) = i by omega]; simp; omega
    · split
      · rw [show 8 + (i - 8) = i by omega]; simp; omega
      · rw [show 12 + (i - 12) = i by omega]; simp; omega

theorem nib_and (a b c d p q r s : BitVec 4) :
    nib a b c d &&& nib p q r s = nib (a &&& p) (b &&& q) (c &&& r) (d &&& s) := by
  apply BitVec.eq_of_getLsbD_eq
  intro i hi
  simp only [BitVec.getLsbD_and, nib_getLsbD]
  split
  · rfl
  · split
    · rfl
    · split <;> rfl

theorem nib_inj {a b c d p q r s : BitVec 4} :
    nib a b c d = nib p q r s ↔ a = p ∧ b = q ∧ c = r ∧ d = s := by
  constructor
  · intro h
    have key : ∀ i, (nib a b c d).getLsbD i = (nib p q r s).getLsbD i := fun i => by rw [h]
    simp only [nib_getLsbD] at key
    refine ⟨?_, ?_, ?_, ?_⟩ <;> apply BitVec.eq_of_getLsbD_eq <;> intro i hi
    · simpa [show ¬ i + 12 < 4 by omega, show ¬ i + 12 < 8 by omega] using key (i + 12)
    · simpa [show ¬ i + 8 < 4 by omega, show i + 8 < 12 by omega] using key (i + 8)
    · simpa [show i + 4 < 8 by omega] using key (i + 4)
    · simpa [hi] using key i
  · rintro ⟨rfl, rfl, rfl, rfl⟩
    rfl

theorem nib_beq (a b c d p q r s : BitVec 4) :
    (nib a b c d == nib p q r s) = (a == p && (b == q && (c == r && d == s))) := by
  rw [Bool.eq_iff_iff]
  simp [nib_inj]

theorem and_ones (a : BitVec 4) : a &&& 0xF#4 = a := by
  revert a
  decide

theorem and_zeros (a : BitVec 4) : a &&& 0#4 = 0#4 := by
  revert a
  decide

/-! ### What a row of each mask compares (R58, R59) -/

/-- Mask 0xF000: the first nibble. -/
theorem selects_F000 (m : String) (f : Word → Instr) (p a b c d : BitVec 4) :
    (OpcodeRow.mk m 0xF000#16 (nib p 0#4 0#4 0#4) f).selects (nib a b c d) = (a == p) := by
  have h : (0xF000#16) = nib 0xF#4 0#4 0#4 0#4 := by decide
  simp only [OpcodeRow.selects, h, nib_and, and_ones, and_zeros, nib_beq]
  simp

/-- Mask 0xF00F: the first and the last nibble. -/
theorem selects_F00F (m : String) (f : Word → Instr) (p s a b c d : BitVec 4) :
    (OpcodeRow.mk m 0xF00F#16 (nib p 0#4 0#4 s) f).selects (nib a b c d) = (a == p && d == s) := by
  have h : (0xF00F#16) = nib 0xF#4 0#4 0#4 0xF#4 := by decide
  simp only [OpcodeRow.selects, h, nib_and, and_ones, and_zeros, nib_beq]
  simp

/-- Mask 0xF0FF: all but the second nibble. -/
theorem selects_F0FF (m : String) (f : Word → Instr) (p r s a b c d : BitVec 4) :
    (OpcodeRow.mk m 0xF0FF#16 (nib p 0#4 r s) f).selects (nib a b c d) = (a == p && (c == r && d == s)) := by
  have h : (0xF0FF#16) = nib 0xF#4 0#4 0xF#4 0xF#4 := by decide
  simp only [OpcodeRow.selects, h, nib_and, and_ones, and_zeros, nib_beq]
  simp

/-- Mask 0xFFFF: the whole word. -/
theorem selects_FFFF (m : String) (f : Word → Instr) (p q r s a b c d : BitVec 4) :
    (OpcodeRow.mk m 0xFFFF#16 (nib p q r s) f).selects (nib a b c d) =
      (a == p && (b == q && (c == r && d == s))) := by
  have h : (0xFFFF#16) = nib 0xF#4 0xF#4 0xF#4 0xF#4 := by decide
  simp only [OpcodeRow.selects, h, nib_and, and_ones, nib_beq]

/-! ### The table with its patterns as nibbles (R59) -/

theorem tableSystem_nib : tableSystem =
    [⟨"CLS", 0xFFFF#16, nib 0x0#4 0x0#4 0xE#4 0x0#4, fun _ => .cls⟩,
     ⟨"RET", 0xFFFF#16, nib 0x0#4 0x0#4 0xE#4 0xE#4, fun _ => .ret⟩,
     ⟨"JP_addr", 0xF000#16, nib 0x1#4 0x0#4 0x0#4 0x0#4, fun w => .jp (fieldAddr w)⟩,
     ⟨"CALL_addr", 0xF000#16, nib 0x2#4 0x0#4 0x0#4 0x0#4, fun w => .call (fieldAddr w)⟩] := rfl

theorem tableImmediate_nib : tableImmediate =
    [⟨"SE_Vx__k", 0xF000#16, nib 0x3#4 0x0#4 0x0#4 0x0#4, fun w => .seK (fieldX w) (fieldK w)⟩,
     ⟨"SNE_Vx__k", 0xF000#16, nib 0x4#4 0x0#4 0x0#4 0x0#4, fun w => .sneK (fieldX w) (fieldK w)⟩,
     ⟨"SE_Vx__Vy", 0xF00F#16, nib 0x5#4 0x0#4 0x0#4 0x0#4, fun w => .seV (fieldX w) (fieldY w)⟩,
     ⟨"LD_Vx__k", 0xF000#16, nib 0x6#4 0x0#4 0x0#4 0x0#4, fun w => .ldK (fieldX w) (fieldK w)⟩,
     ⟨"ADD_Vx__k", 0xF000#16, nib 0x7#4 0x0#4 0x0#4 0x0#4, fun w => .addK (fieldX w) (fieldK w)⟩] := rfl

theorem tableRegister_nib : tableRegister =
    [⟨"LD_Vx__Vy", 0xF00F#16, nib 0x8#4 0x0#4 0x0#4 0x0#4, fun w => .ldV (fieldX w) (fieldY w)⟩,
     ⟨"OR_Vx__Vy", 0xF00F#16, nib 0x8#4 0x0#4 0x0#4 0x1#4, fun w => .orV (fieldX w) (fieldY w)⟩,
     ⟨"AND_Vx__Vy", 0xF00F#16, nib 0x8#4 0x0#4 0x0#4 0x2#4, fun w => .andV (fieldX w) (fieldY w)⟩,
     ⟨"XOR_Vx__Vy", 0xF00F#16, nib 0x8#4 0x0#4 0x0#4 0x3#4, fun w => .xorV (fieldX w) (fieldY w)⟩,
     ⟨"ADD_Vx__Vy", 0xF00F#16, nib 0x8#4 0x0#4 0x0#4 0x4#4, fun w => .addV (fieldX w) (fieldY w)⟩,
     ⟨"SUB_Vx__Vy", 0xF00F#16, nib 0x8#4 0x0#4 0x0#4 0x5#4, fun w => .subV (fieldX w) (fieldY w)⟩,
     ⟨"SHR_Vx__Vy", 0xF00F#16, nib 0x8#4 0x0#4 0x0#4 0x6#4, fun w => .shrV (fieldX w) (fieldY w)⟩,
     ⟨"SUBN_Vx__Vy", 0xF00F#16, nib 0x8#4 0x0#4 0x0#4 0x7#4, fun w => .subnV (fieldX w) (fieldY w)⟩,
     ⟨"SHL_Vx__Vy", 0xF00F#16, nib 0x8#4 0x0#4 0x0#4 0xE#4, fun w => .shlV (fieldX w) (fieldY w)⟩,
     ⟨"SNE_Vx__Vy", 0xF00F#16, nib 0x9#4 0x0#4 0x0#4 0x0#4, fun w => .sneV (fieldX w) (fieldY w)⟩] := rfl

theorem tableAddress_nib : tableAddress =
    [⟨"LD_I__addr", 0xF000#16, nib 0xA#4 0x0#4 0x0#4 0x0#4, fun w => .ldI (fieldAddr w)⟩,
     ⟨"JP_V0__addr", 0xF000#16, nib 0xB#4 0x0#4 0x0#4 0x0#4, fun w => .jpV0 (fieldAddr w)⟩,
     ⟨"RND_Vx__k", 0xF000#16, nib 0xC#4 0x0#4 0x0#4 0x0#4, fun w => .rnd (fieldX w) (fieldK w)⟩,
     ⟨"DRW_Vx__Vy__n", 0xF000#16, nib 0xD#4 0x0#4 0x0#4 0x0#4, fun w => .drw (fieldX w) (fieldY w) (fieldN w)⟩] := rfl

theorem tableKeyTimer_nib : tableKeyTimer =
    [⟨"SKP_Vx", 0xF0FF#16, nib 0xE#4 0x0#4 0x9#4 0xE#4, fun w => .skp (fieldX w)⟩,
     ⟨"SKNP_Vx", 0xF0FF#16, nib 0xE#4 0x0#4 0xA#4 0x1#4, fun w => .sknp (fieldX w)⟩,
     ⟨"LD_Vx__DT", 0xF0FF#16, nib 0xF#4 0x0#4 0x0#4 0x7#4, fun w => .ldVDt (fieldX w)⟩,
     ⟨"LD_Vx__K", 0xF0FF#16, nib 0xF#4 0x0#4 0x0#4 0xA#4, fun w => .ldVKey (fieldX w)⟩,
     ⟨"LD_DT__Vx", 0xF0FF#16, nib 0xF#4 0x0#4 0x1#4 0x5#4, fun w => .ldDtV (fieldX w)⟩,
     ⟨"LD_ST__Vx", 0xF0FF#16, nib 0xF#4 0x0#4 0x1#4 0x8#4, fun w => .ldStV (fieldX w)⟩,
     ⟨"ADD_I__Vx", 0xF0FF#16, nib 0xF#4 0x0#4 0x1#4 0xE#4, fun w => .addI (fieldX w)⟩,
     ⟨"LD_F__Vx", 0xF0FF#16, nib 0xF#4 0x0#4 0x2#4 0x9#4, fun w => .ldF (fieldX w)⟩,
     ⟨"LD_B__Vx", 0xF0FF#16, nib 0xF#4 0x0#4 0x3#4 0x3#4, fun w => .ldB (fieldX w)⟩,
     ⟨"LD__I___Vx", 0xF0FF#16, nib 0xF#4 0x0#4 0x5#4 0x5#4, fun w => .store (fieldX w)⟩,
     ⟨"LD_Vx___I", 0xF0FF#16, nib 0xF#4 0x0#4 0x6#4 0x5#4, fun w => .load (fieldX w)⟩] := rfl

/-! ### Fields -/

@[simp] theorem nibbleOfBits_bitsOfNibble (x : Fin 16) : nibbleOfBits (bitsOfNibble x) = x := rfl

@[simp] theorem bitsOfNibble_nibbleOfBits (b : BitVec 4) : bitsOfNibble (nibbleOfBits b) = b := rfl

theorem nib_extract_x (a b c d : BitVec 4) : (nib a b c d).extractLsb' 8 4 = b := by
  apply BitVec.eq_of_getLsbD_eq
  intro i hi
  simp [nib_getLsbD, hi, show ¬ 8 + i < 4 by omega, show ¬ 8 + i < 8 by omega, show 8 + i < 12 by omega]

theorem nib_extract_y (a b c d : BitVec 4) : (nib a b c d).extractLsb' 4 4 = c := by
  apply BitVec.eq_of_getLsbD_eq
  intro i hi
  simp [nib_getLsbD, hi, show ¬ 4 + i < 4 by omega, show 4 + i < 8 by omega]

theorem nib_extract_n (a b c d : BitVec 4) : (nib a b c d).extractLsb' 0 4 = d := by
  apply BitVec.eq_of_getLsbD_eq
  intro i hi
  simp [nib_getLsbD, hi]

@[simp] theorem fieldX_nib (a b c d : BitVec 4) : fieldX (nib a b c d) = nibbleOfBits b := by
  rw [fieldX, nib_extract_x]

@[simp] theorem fieldY_nib (a b c d : BitVec 4) : fieldY (nib a b c d) = nibbleOfBits c := by
  rw [fieldY, nib_extract_y]

@[simp] theorem fieldN_nib (a b c d : BitVec 4) : fieldN (nib a b c d) = nibbleOfBits d := by
  rw [fieldN, nib_extract_n]

@[simp] theorem fieldK_nib (a b c d : BitVec 4) : fieldK (nib a b c d) = c ++ d := by
  apply BitVec.eq_of_getLsbD_eq
  intro i hi
  simp only [fieldK, BitVec.getLsbD_extractLsb', nib_getLsbD, BitVec.getLsbD_append]
  by_cases h : i < 4
  · simp [h, hi]
  · simp [h, hi]

@[simp] theorem fieldAddr_nib (a b c d : BitVec 4) : fieldAddr (nib a b c d) = b ++ c ++ d := by
  apply BitVec.eq_of_getLsbD_eq
  intro i hi
  simp only [fieldAddr, BitVec.getLsbD_extractLsb', nib_getLsbD, BitVec.getLsbD_append]
  by_cases h : i < 4
  · simp [h, hi]
  · by_cases h1 : i < 8
    · simp [h, h1, hi, show i - 4 < 4 by omega]
    · simp [h, h1, hi, show ¬ i - 4 < 4 by omega, show i - 4 - 4 = i - 8 by omega]

/-! ### Encoded words as nibbles -/

/-- The two nibbles of a byte make it up again. -/
theorem byte_nibbles (k : Byte) : k.extractLsb' 4 4 ++ k.extractLsb' 0 4 = k := by
  apply BitVec.eq_of_getLsbD_eq
  intro i hi
  simp only [BitVec.getLsbD_append, BitVec.getLsbD_extractLsb']
  by_cases h : i < 4
  · simp [h]
  · simp [h, show 4 + (i - 4) = i by omega]; omega

/-- The three nibbles of a 12-bit address make it up again. -/
theorem addr_nibbles (k : BitVec 12) : k.extractLsb' 8 4 ++ k.extractLsb' 4 4 ++ k.extractLsb' 0 4 = k := by
  apply BitVec.eq_of_getLsbD_eq
  intro i hi
  simp only [BitVec.getLsbD_append, BitVec.getLsbD_extractLsb']
  by_cases h : i < 4
  · simp [h]
  · by_cases h1 : i < 8
    · simp [h, show i - 4 < 4 by omega, show 4 + (i - 4) = i by omega]
    · simp [h, show ¬ i - 4 < 4 by omega, show 8 + (i - 4 - 4) = i by omega]; omega

theorem wordXYN_nib (op : BitVec 4) (x y : Reg) (n : BitVec 4) :
    wordXYN op x y n = nib op (bitsOfNibble x) (bitsOfNibble y) n := rfl

theorem wordXK_nib (op : BitVec 4) (x : Reg) (k : Byte) :
    wordXK op x k = nib op (bitsOfNibble x) (k.extractLsb' 4 4) (k.extractLsb' 0 4) := by
  conv_lhs => rw [wordXK, ← byte_nibbles k]
  apply BitVec.eq_of_getLsbD_eq
  intro i hi
  rw [nib_getLsbD]
  simp only [BitVec.getLsbD_append]
  by_cases h : i < 4
  · simp [h, show i < 8 by omega]
  · by_cases h1 : i < 8
    · simp [h, h1]
    · by_cases h2 : i < 12
      · simp [h, h1, h2, show i - 8 < 4 by omega]
      · simp [h, h1, h2, show ¬ i - 8 < 4 by omega, show i - 8 - 4 = i - 12 by omega]

theorem wordAddr_nib (op : BitVec 4) (k : BitVec 12) :
    wordAddr op k = nib op (k.extractLsb' 8 4) (k.extractLsb' 4 4) (k.extractLsb' 0 4) := by
  conv_lhs => rw [wordAddr, ← addr_nibbles k]
  apply BitVec.eq_of_getLsbD_eq
  intro i hi
  rw [nib_getLsbD]
  simp only [BitVec.getLsbD_append]
  by_cases h : i < 4
  · simp [h, show i < 12 by omega]
  · by_cases h1 : i < 8
    · simp [h, h1, show i < 12 by omega, show i - 4 < 4 by omega]
    · by_cases h2 : i < 12
      · simp [h, h1, h2, show ¬ i - 4 < 4 by omega, show i - 4 - 4 = i - 8 by omega]
      · simp [h, h1, h2]

end Sys2Proof
end

