-- ==== Sys2Proof/Laws/State.lean ====
section
/-! SUPPORT. One lemma per field of the state per update, so that no proof unfolds a record update. -/

namespace Sys2Proof.Machine

variable (s : State)

/-! ### writeByte -/

@[simp] theorem State.writeByte_mem (a : Nat) (w : Byte) : (s.writeByte a w).mem = s.mem.write a w := rfl
@[simp] theorem State.writeByte_v (a : Nat) (w : Byte) : (s.writeByte a w).v = s.v := rfl
@[simp] theorem State.writeByte_i (a : Nat) (w : Byte) : (s.writeByte a w).i = s.i := rfl
@[simp] theorem State.writeByte_pc (a : Nat) (w : Byte) : (s.writeByte a w).pc = s.pc := rfl
@[simp] theorem State.writeByte_stack (a : Nat) (w : Byte) : (s.writeByte a w).stack = s.stack := rfl
@[simp] theorem State.writeByte_dt (a : Nat) (w : Byte) : (s.writeByte a w).dt = s.dt := rfl
@[simp] theorem State.writeByte_st (a : Nat) (w : Byte) : (s.writeByte a w).st = s.st := rfl
@[simp] theorem State.writeByte_acc (a : Nat) (w : Byte) : (s.writeByte a w).acc = s.acc := rfl
@[simp] theorem State.writeByte_fb (a : Nat) (w : Byte) : (s.writeByte a w).fb = s.fb := rfl
@[simp] theorem State.writeByte_keys (a : Nat) (w : Byte) : (s.writeByte a w).keys = s.keys := rfl
@[simp] theorem State.writeByte_waiting (a : Nat) (w : Byte) : (s.writeByte a w).waiting = s.waiting := rfl
@[simp] theorem State.writeByte_waitReg (a : Nat) (w : Byte) : (s.writeByte a w).waitReg = s.waitReg := rfl
@[simp] theorem State.writeByte_halt (a : Nat) (w : Byte) : (s.writeByte a w).halt = s.halt := rfl
@[simp] theorem State.writeByte_randBytes (a : Nat) (w : Byte) : (s.writeByte a w).randBytes = s.randBytes := rfl
@[simp] theorem State.writeByte_draws (a : Nat) (w : Byte) : (s.writeByte a w).draws = s.draws := rfl
@[simp] theorem State.writeByte_host (a : Nat) (w : Byte) : (s.writeByte a w).host = s.host := rfl

/-! ### writeV -/

@[simp] theorem State.writeV_mem (x : Reg) (w : Byte) : (s.writeV x w).mem = s.mem := rfl
@[simp] theorem State.writeV_v (x : Reg) (w : Byte) : (s.writeV x w).v = s.v.set x w := rfl
@[simp] theorem State.writeV_i (x : Reg) (w : Byte) : (s.writeV x w).i = s.i := rfl
@[simp] theorem State.writeV_pc (x : Reg) (w : Byte) : (s.writeV x w).pc = s.pc := rfl
@[simp] theorem State.writeV_stack (x : Reg) (w : Byte) : (s.writeV x w).stack = s.stack := rfl
@[simp] theorem State.writeV_dt (x : Reg) (w : Byte) : (s.writeV x w).dt = s.dt := rfl
@[simp] theorem State.writeV_st (x : Reg) (w : Byte) : (s.writeV x w).st = s.st := rfl
@[simp] theorem State.writeV_acc (x : Reg) (w : Byte) : (s.writeV x w).acc = s.acc := rfl
@[simp] theorem State.writeV_fb (x : Reg) (w : Byte) : (s.writeV x w).fb = s.fb := rfl
@[simp] theorem State.writeV_keys (x : Reg) (w : Byte) : (s.writeV x w).keys = s.keys := rfl
@[simp] theorem State.writeV_waiting (x : Reg) (w : Byte) : (s.writeV x w).waiting = s.waiting := rfl
@[simp] theorem State.writeV_waitReg (x : Reg) (w : Byte) : (s.writeV x w).waitReg = s.waitReg := rfl
@[simp] theorem State.writeV_halt (x : Reg) (w : Byte) : (s.writeV x w).halt = s.halt := rfl
@[simp] theorem State.writeV_randBytes (x : Reg) (w : Byte) : (s.writeV x w).randBytes = s.randBytes := rfl
@[simp] theorem State.writeV_draws (x : Reg) (w : Byte) : (s.writeV x w).draws = s.draws := rfl
@[simp] theorem State.writeV_host (x : Reg) (w : Byte) : (s.writeV x w).host = s.host := rfl

/-! ### setI -/

@[simp] theorem State.setI_mem (w : Word) : (s.setI w).mem = s.mem := rfl
@[simp] theorem State.setI_v (w : Word) : (s.setI w).v = s.v := rfl
@[simp] theorem State.setI_i (w : Word) : (s.setI w).i = w := rfl
@[simp] theorem State.setI_pc (w : Word) : (s.setI w).pc = s.pc := rfl
@[simp] theorem State.setI_stack (w : Word) : (s.setI w).stack = s.stack := rfl
@[simp] theorem State.setI_dt (w : Word) : (s.setI w).dt = s.dt := rfl
@[simp] theorem State.setI_st (w : Word) : (s.setI w).st = s.st := rfl
@[simp] theorem State.setI_acc (w : Word) : (s.setI w).acc = s.acc := rfl
@[simp] theorem State.setI_fb (w : Word) : (s.setI w).fb = s.fb := rfl
@[simp] theorem State.setI_keys (w : Word) : (s.setI w).keys = s.keys := rfl
@[simp] theorem State.setI_waiting (w : Word) : (s.setI w).waiting = s.waiting := rfl
@[simp] theorem State.setI_waitReg (w : Word) : (s.setI w).waitReg = s.waitReg := rfl
@[simp] theorem State.setI_halt (w : Word) : (s.setI w).halt = s.halt := rfl
@[simp] theorem State.setI_randBytes (w : Word) : (s.setI w).randBytes = s.randBytes := rfl
@[simp] theorem State.setI_draws (w : Word) : (s.setI w).draws = s.draws := rfl
@[simp] theorem State.setI_host (w : Word) : (s.setI w).host = s.host := rfl

/-! ### setPc -/

@[simp] theorem State.setPc_mem (w : Word) : (s.setPc w).mem = s.mem := rfl
@[simp] theorem State.setPc_v (w : Word) : (s.setPc w).v = s.v := rfl
@[simp] theorem State.setPc_i (w : Word) : (s.setPc w).i = s.i := rfl
@[simp] theorem State.setPc_pc (w : Word) : (s.setPc w).pc = w := rfl
@[simp] theorem State.setPc_stack (w : Word) : (s.setPc w).stack = s.stack := rfl
@[simp] theorem State.setPc_dt (w : Word) : (s.setPc w).dt = s.dt := rfl
@[simp] theorem State.setPc_st (w : Word) : (s.setPc w).st = s.st := rfl
@[simp] theorem State.setPc_acc (w : Word) : (s.setPc w).acc = s.acc := rfl
@[simp] theorem State.setPc_fb (w : Word) : (s.setPc w).fb = s.fb := rfl
@[simp] theorem State.setPc_keys (w : Word) : (s.setPc w).keys = s.keys := rfl
@[simp] theorem State.setPc_waiting (w : Word) : (s.setPc w).waiting = s.waiting := rfl
@[simp] theorem State.setPc_waitReg (w : Word) : (s.setPc w).waitReg = s.waitReg := rfl
@[simp] theorem State.setPc_halt (w : Word) : (s.setPc w).halt = s.halt := rfl
@[simp] theorem State.setPc_randBytes (w : Word) : (s.setPc w).randBytes = s.randBytes := rfl
@[simp] theorem State.setPc_draws (w : Word) : (s.setPc w).draws = s.draws := rfl
@[simp] theorem State.setPc_host (w : Word) : (s.setPc w).host = s.host := rfl

/-! ### advancePc -/

@[simp] theorem State.advancePc_mem : (s.advancePc).mem = s.mem := rfl
@[simp] theorem State.advancePc_v : (s.advancePc).v = s.v := rfl
@[simp] theorem State.advancePc_i : (s.advancePc).i = s.i := rfl
@[simp] theorem State.advancePc_pc : (s.advancePc).pc = s.pc + 2 := rfl
@[simp] theorem State.advancePc_stack : (s.advancePc).stack = s.stack := rfl
@[simp] theorem State.advancePc_dt : (s.advancePc).dt = s.dt := rfl
@[simp] theorem State.advancePc_st : (s.advancePc).st = s.st := rfl
@[simp] theorem State.advancePc_acc : (s.advancePc).acc = s.acc := rfl
@[simp] theorem State.advancePc_fb : (s.advancePc).fb = s.fb := rfl
@[simp] theorem State.advancePc_keys : (s.advancePc).keys = s.keys := rfl
@[simp] theorem State.advancePc_waiting : (s.advancePc).waiting = s.waiting := rfl
@[simp] theorem State.advancePc_waitReg : (s.advancePc).waitReg = s.waitReg := rfl
@[simp] theorem State.advancePc_halt : (s.advancePc).halt = s.halt := rfl
@[simp] theorem State.advancePc_randBytes : (s.advancePc).randBytes = s.randBytes := rfl
@[simp] theorem State.advancePc_draws : (s.advancePc).draws = s.draws := rfl
@[simp] theorem State.advancePc_host : (s.advancePc).host = s.host := rfl

/-! ### push -/

@[simp] theorem State.push_mem (w : Word) : (s.push w).mem = s.mem := rfl
@[simp] theorem State.push_v (w : Word) : (s.push w).v = s.v := rfl
@[simp] theorem State.push_i (w : Word) : (s.push w).i = s.i := rfl
@[simp] theorem State.push_pc (w : Word) : (s.push w).pc = s.pc := rfl
@[simp] theorem State.push_stack (w : Word) : (s.push w).stack = w :: s.stack := rfl
@[simp] theorem State.push_dt (w : Word) : (s.push w).dt = s.dt := rfl
@[simp] theorem State.push_st (w : Word) : (s.push w).st = s.st := rfl
@[simp] theorem State.push_acc (w : Word) : (s.push w).acc = s.acc := rfl
@[simp] theorem State.push_fb (w : Word) : (s.push w).fb = s.fb := rfl
@[simp] theorem State.push_keys (w : Word) : (s.push w).keys = s.keys := rfl
@[simp] theorem State.push_waiting (w : Word) : (s.push w).waiting = s.waiting := rfl
@[simp] theorem State.push_waitReg (w : Word) : (s.push w).waitReg = s.waitReg := rfl
@[simp] theorem State.push_halt (w : Word) : (s.push w).halt = s.halt := rfl
@[simp] theorem State.push_randBytes (w : Word) : (s.push w).randBytes = s.randBytes := rfl
@[simp] theorem State.push_draws (w : Word) : (s.push w).draws = s.draws := rfl
@[simp] theorem State.push_host (w : Word) : (s.push w).host = s.host := rfl

/-! ### drawn -/

@[simp] theorem State.drawn_mem : (s.drawn).mem = s.mem := rfl
@[simp] theorem State.drawn_v : (s.drawn).v = s.v := rfl
@[simp] theorem State.drawn_i : (s.drawn).i = s.i := rfl
@[simp] theorem State.drawn_pc : (s.drawn).pc = s.pc := rfl
@[simp] theorem State.drawn_stack : (s.drawn).stack = s.stack := rfl
@[simp] theorem State.drawn_dt : (s.drawn).dt = s.dt := rfl
@[simp] theorem State.drawn_st : (s.drawn).st = s.st := rfl
@[simp] theorem State.drawn_acc : (s.drawn).acc = s.acc := rfl
@[simp] theorem State.drawn_fb : (s.drawn).fb = s.fb := rfl
@[simp] theorem State.drawn_keys : (s.drawn).keys = s.keys := rfl
@[simp] theorem State.drawn_waiting : (s.drawn).waiting = s.waiting := rfl
@[simp] theorem State.drawn_waitReg : (s.drawn).waitReg = s.waitReg := rfl
@[simp] theorem State.drawn_halt : (s.drawn).halt = s.halt := rfl
@[simp] theorem State.drawn_randBytes : (s.drawn).randBytes = s.randBytes.tail := rfl
@[simp] theorem State.drawn_draws : (s.drawn).draws = s.draws + 1 := rfl
@[simp] theorem State.drawn_host : (s.drawn).host = s.host := rfl

/-! ### elapse -/

@[simp] theorem State.elapse_mem (e : Rat) : (s.elapse e).mem = s.mem := rfl
@[simp] theorem State.elapse_v (e : Rat) : (s.elapse e).v = s.v := rfl
@[simp] theorem State.elapse_i (e : Rat) : (s.elapse e).i = s.i := rfl
@[simp] theorem State.elapse_pc (e : Rat) : (s.elapse e).pc = s.pc := rfl
@[simp] theorem State.elapse_stack (e : Rat) : (s.elapse e).stack = s.stack := rfl
@[simp] theorem State.elapse_dt (e : Rat) : (s.elapse e).dt = (s.clock.elapse e).dt := rfl
@[simp] theorem State.elapse_st (e : Rat) : (s.elapse e).st = (s.clock.elapse e).st := rfl
@[simp] theorem State.elapse_acc (e : Rat) : (s.elapse e).acc = (s.clock.elapse e).acc := rfl
@[simp] theorem State.elapse_fb (e : Rat) : (s.elapse e).fb = s.fb := rfl
@[simp] theorem State.elapse_keys (e : Rat) : (s.elapse e).keys = s.keys := rfl
@[simp] theorem State.elapse_waiting (e : Rat) : (s.elapse e).waiting = s.waiting := rfl
@[simp] theorem State.elapse_waitReg (e : Rat) : (s.elapse e).waitReg = s.waitReg := rfl
@[simp] theorem State.elapse_halt (e : Rat) : (s.elapse e).halt = s.halt := rfl
@[simp] theorem State.elapse_randBytes (e : Rat) : (s.elapse e).randBytes = s.randBytes := rfl
@[simp] theorem State.elapse_draws (e : Rat) : (s.elapse e).draws = s.draws := rfl
@[simp] theorem State.elapse_host (e : Rat) : (s.elapse e).host = s.host := rfl

/-! ### setDt -/

@[simp] theorem State.setDt_mem (w : Byte) : (s.setDt w).mem = s.mem := rfl
@[simp] theorem State.setDt_v (w : Byte) : (s.setDt w).v = s.v := rfl
@[simp] theorem State.setDt_i (w : Byte) : (s.setDt w).i = s.i := rfl
@[simp] theorem State.setDt_pc (w : Byte) : (s.setDt w).pc = s.pc := rfl
@[simp] theorem State.setDt_stack (w : Byte) : (s.setDt w).stack = s.stack := rfl
@[simp] theorem State.setDt_dt (w : Byte) : (s.setDt w).dt = w := rfl
@[simp] theorem State.setDt_st (w : Byte) : (s.setDt w).st = s.st := rfl
@[simp] theorem State.setDt_acc (w : Byte) : (s.setDt w).acc = s.acc := rfl
@[simp] theorem State.setDt_fb (w : Byte) : (s.setDt w).fb = s.fb := rfl
@[simp] theorem State.setDt_keys (w : Byte) : (s.setDt w).keys = s.keys := rfl
@[simp] theorem State.setDt_waiting (w : Byte) : (s.setDt w).waiting = s.waiting := rfl
@[simp] theorem State.setDt_waitReg (w : Byte) : (s.setDt w).waitReg = s.waitReg := rfl
@[simp] theorem State.setDt_halt (w : Byte) : (s.setDt w).halt = s.halt := rfl
@[simp] theorem State.setDt_randBytes (w : Byte) : (s.setDt w).randBytes = s.randBytes := rfl
@[simp] theorem State.setDt_draws (w : Byte) : (s.setDt w).draws = s.draws := rfl
@[simp] theorem State.setDt_host (w : Byte) : (s.setDt w).host = s.host := rfl

/-! ### setSt -/

@[simp] theorem State.setSt_mem (w : Byte) : (s.setSt w).mem = s.mem := rfl
@[simp] theorem State.setSt_v (w : Byte) : (s.setSt w).v = s.v := rfl
@[simp] theorem State.setSt_i (w : Byte) : (s.setSt w).i = s.i := rfl
@[simp] theorem State.setSt_pc (w : Byte) : (s.setSt w).pc = s.pc := rfl
@[simp] theorem State.setSt_stack (w : Byte) : (s.setSt w).stack = s.stack := rfl
@[simp] theorem State.setSt_dt (w : Byte) : (s.setSt w).dt = s.dt := rfl
@[simp] theorem State.setSt_st (w : Byte) : (s.setSt w).st = w := rfl
@[simp] theorem State.setSt_acc (w : Byte) : (s.setSt w).acc = s.acc := rfl
@[simp] theorem State.setSt_fb (w : Byte) : (s.setSt w).fb = s.fb := rfl
@[simp] theorem State.setSt_keys (w : Byte) : (s.setSt w).keys = s.keys := rfl
@[simp] theorem State.setSt_waiting (w : Byte) : (s.setSt w).waiting = s.waiting := rfl
@[simp] theorem State.setSt_waitReg (w : Byte) : (s.setSt w).waitReg = s.waitReg := rfl
@[simp] theorem State.setSt_halt (w : Byte) : (s.setSt w).halt = s.halt := rfl
@[simp] theorem State.setSt_randBytes (w : Byte) : (s.setSt w).randBytes = s.randBytes := rfl
@[simp] theorem State.setSt_draws (w : Byte) : (s.setSt w).draws = s.draws := rfl
@[simp] theorem State.setSt_host (w : Byte) : (s.setSt w).host = s.host := rfl

/-! ### setKey -/

@[simp] theorem State.setKey_mem (k : Key) (down : Bool) : (s.setKey k down).mem = s.mem := rfl
@[simp] theorem State.setKey_v (k : Key) (down : Bool) : (s.setKey k down).v = s.v := rfl
@[simp] theorem State.setKey_i (k : Key) (down : Bool) : (s.setKey k down).i = s.i := rfl
@[simp] theorem State.setKey_pc (k : Key) (down : Bool) : (s.setKey k down).pc = s.pc := rfl
@[simp] theorem State.setKey_stack (k : Key) (down : Bool) : (s.setKey k down).stack = s.stack := rfl
@[simp] theorem State.setKey_dt (k : Key) (down : Bool) : (s.setKey k down).dt = s.dt := rfl
@[simp] theorem State.setKey_st (k : Key) (down : Bool) : (s.setKey k down).st = s.st := rfl
@[simp] theorem State.setKey_acc (k : Key) (down : Bool) : (s.setKey k down).acc = s.acc := rfl
@[simp] theorem State.setKey_fb (k : Key) (down : Bool) : (s.setKey k down).fb = s.fb := rfl
@[simp] theorem State.setKey_keys (k : Key) (down : Bool) : (s.setKey k down).keys = s.keys.set k down := rfl
@[simp] theorem State.setKey_waiting (k : Key) (down : Bool) : (s.setKey k down).waiting = s.waiting := rfl
@[simp] theorem State.setKey_waitReg (k : Key) (down : Bool) : (s.setKey k down).waitReg = s.waitReg := rfl
@[simp] theorem State.setKey_halt (k : Key) (down : Bool) : (s.setKey k down).halt = s.halt := rfl
@[simp] theorem State.setKey_randBytes (k : Key) (down : Bool) : (s.setKey k down).randBytes = s.randBytes := rfl
@[simp] theorem State.setKey_draws (k : Key) (down : Bool) : (s.setKey k down).draws = s.draws := rfl
@[simp] theorem State.setKey_host (k : Key) (down : Bool) : (s.setKey k down).host = s.host := rfl

/-! ### arm -/

@[simp] theorem State.arm_mem (x : Reg) : (s.arm x).mem = s.mem := rfl
@[simp] theorem State.arm_v (x : Reg) : (s.arm x).v = s.v := rfl
@[simp] theorem State.arm_i (x : Reg) : (s.arm x).i = s.i := rfl
@[simp] theorem State.arm_pc (x : Reg) : (s.arm x).pc = s.pc := rfl
@[simp] theorem State.arm_stack (x : Reg) : (s.arm x).stack = s.stack := rfl
@[simp] theorem State.arm_dt (x : Reg) : (s.arm x).dt = s.dt := rfl
@[simp] theorem State.arm_st (x : Reg) : (s.arm x).st = s.st := rfl
@[simp] theorem State.arm_acc (x : Reg) : (s.arm x).acc = s.acc := rfl
@[simp] theorem State.arm_fb (x : Reg) : (s.arm x).fb = s.fb := rfl
@[simp] theorem State.arm_keys (x : Reg) : (s.arm x).keys = s.keys := rfl
@[simp] theorem State.arm_waiting (x : Reg) : (s.arm x).waiting = true := rfl
@[simp] theorem State.arm_waitReg (x : Reg) : (s.arm x).waitReg = x := rfl
@[simp] theorem State.arm_halt (x : Reg) : (s.arm x).halt = s.halt := rfl
@[simp] theorem State.arm_randBytes (x : Reg) : (s.arm x).randBytes = s.randBytes := rfl
@[simp] theorem State.arm_draws (x : Reg) : (s.arm x).draws = s.draws := rfl
@[simp] theorem State.arm_host (x : Reg) : (s.arm x).host = s.host := rfl

/-! ### setHalt -/

@[simp] theorem State.setHalt_mem (r : HaltReason) : (s.setHalt r).mem = s.mem := rfl
@[simp] theorem State.setHalt_v (r : HaltReason) : (s.setHalt r).v = s.v := rfl
@[simp] theorem State.setHalt_i (r : HaltReason) : (s.setHalt r).i = s.i := rfl
@[simp] theorem State.setHalt_pc (r : HaltReason) : (s.setHalt r).pc = s.pc := rfl
@[simp] theorem State.setHalt_stack (r : HaltReason) : (s.setHalt r).stack = s.stack := rfl
@[simp] theorem State.setHalt_dt (r : HaltReason) : (s.setHalt r).dt = s.dt := rfl
@[simp] theorem State.setHalt_st (r : HaltReason) : (s.setHalt r).st = s.st := rfl
@[simp] theorem State.setHalt_acc (r : HaltReason) : (s.setHalt r).acc = s.acc := rfl
@[simp] theorem State.setHalt_fb (r : HaltReason) : (s.setHalt r).fb = s.fb := rfl
@[simp] theorem State.setHalt_keys (r : HaltReason) : (s.setHalt r).keys = s.keys := rfl
@[simp] theorem State.setHalt_waiting (r : HaltReason) : (s.setHalt r).waiting = s.waiting := rfl
@[simp] theorem State.setHalt_waitReg (r : HaltReason) : (s.setHalt r).waitReg = s.waitReg := rfl
@[simp] theorem State.setHalt_halt (r : HaltReason) : (s.setHalt r).halt = some r := rfl
@[simp] theorem State.setHalt_randBytes (r : HaltReason) : (s.setHalt r).randBytes = s.randBytes := rfl
@[simp] theorem State.setHalt_draws (r : HaltReason) : (s.setHalt r).draws = s.draws := rfl
@[simp] theorem State.setHalt_host (r : HaltReason) : (s.setHalt r).host = s.host := rfl

/-! ### setFb -/

@[simp] theorem State.setFb_mem (f : Framebuffer) : (s.setFb f).mem = s.mem := rfl
@[simp] theorem State.setFb_v (f : Framebuffer) : (s.setFb f).v = s.v := rfl
@[simp] theorem State.setFb_i (f : Framebuffer) : (s.setFb f).i = s.i := rfl
@[simp] theorem State.setFb_pc (f : Framebuffer) : (s.setFb f).pc = s.pc := rfl
@[simp] theorem State.setFb_stack (f : Framebuffer) : (s.setFb f).stack = s.stack := rfl
@[simp] theorem State.setFb_dt (f : Framebuffer) : (s.setFb f).dt = s.dt := rfl
@[simp] theorem State.setFb_st (f : Framebuffer) : (s.setFb f).st = s.st := rfl
@[simp] theorem State.setFb_acc (f : Framebuffer) : (s.setFb f).acc = s.acc := rfl
@[simp] theorem State.setFb_fb (f : Framebuffer) : (s.setFb f).fb = f := rfl
@[simp] theorem State.setFb_keys (f : Framebuffer) : (s.setFb f).keys = s.keys := rfl
@[simp] theorem State.setFb_waiting (f : Framebuffer) : (s.setFb f).waiting = s.waiting := rfl
@[simp] theorem State.setFb_waitReg (f : Framebuffer) : (s.setFb f).waitReg = s.waitReg := rfl
@[simp] theorem State.setFb_halt (f : Framebuffer) : (s.setFb f).halt = s.halt := rfl
@[simp] theorem State.setFb_randBytes (f : Framebuffer) : (s.setFb f).randBytes = s.randBytes := rfl
@[simp] theorem State.setFb_draws (f : Framebuffer) : (s.setFb f).draws = s.draws := rfl
@[simp] theorem State.setFb_host (f : Framebuffer) : (s.setFb f).host = s.host := rfl

/-! ### setStack -/

@[simp] theorem State.setStack_mem (l : List Word) : (s.setStack l).mem = s.mem := rfl
@[simp] theorem State.setStack_v (l : List Word) : (s.setStack l).v = s.v := rfl
@[simp] theorem State.setStack_i (l : List Word) : (s.setStack l).i = s.i := rfl
@[simp] theorem State.setStack_pc (l : List Word) : (s.setStack l).pc = s.pc := rfl
@[simp] theorem State.setStack_stack (l : List Word) : (s.setStack l).stack = l := rfl
@[simp] theorem State.setStack_dt (l : List Word) : (s.setStack l).dt = s.dt := rfl
@[simp] theorem State.setStack_st (l : List Word) : (s.setStack l).st = s.st := rfl
@[simp] theorem State.setStack_acc (l : List Word) : (s.setStack l).acc = s.acc := rfl
@[simp] theorem State.setStack_fb (l : List Word) : (s.setStack l).fb = s.fb := rfl
@[simp] theorem State.setStack_keys (l : List Word) : (s.setStack l).keys = s.keys := rfl
@[simp] theorem State.setStack_waiting (l : List Word) : (s.setStack l).waiting = s.waiting := rfl
@[simp] theorem State.setStack_waitReg (l : List Word) : (s.setStack l).waitReg = s.waitReg := rfl
@[simp] theorem State.setStack_halt (l : List Word) : (s.setStack l).halt = s.halt := rfl
@[simp] theorem State.setStack_randBytes (l : List Word) : (s.setStack l).randBytes = s.randBytes := rfl
@[simp] theorem State.setStack_draws (l : List Word) : (s.setStack l).draws = s.draws := rfl
@[simp] theorem State.setStack_host (l : List Word) : (s.setStack l).host = s.host := rfl

/-! ### disarm -/

@[simp] theorem State.disarm_mem : (s.disarm).mem = s.mem := rfl
@[simp] theorem State.disarm_v : (s.disarm).v = s.v := rfl
@[simp] theorem State.disarm_i : (s.disarm).i = s.i := rfl
@[simp] theorem State.disarm_pc : (s.disarm).pc = s.pc := rfl
@[simp] theorem State.disarm_stack : (s.disarm).stack = s.stack := rfl
@[simp] theorem State.disarm_dt : (s.disarm).dt = s.dt := rfl
@[simp] theorem State.disarm_st : (s.disarm).st = s.st := rfl
@[simp] theorem State.disarm_acc : (s.disarm).acc = s.acc := rfl
@[simp] theorem State.disarm_fb : (s.disarm).fb = s.fb := rfl
@[simp] theorem State.disarm_keys : (s.disarm).keys = s.keys := rfl
@[simp] theorem State.disarm_waiting : (s.disarm).waiting = false := rfl
@[simp] theorem State.disarm_waitReg : (s.disarm).waitReg = s.waitReg := rfl
@[simp] theorem State.disarm_halt : (s.disarm).halt = s.halt := rfl
@[simp] theorem State.disarm_randBytes : (s.disarm).randBytes = s.randBytes := rfl
@[simp] theorem State.disarm_draws : (s.disarm).draws = s.draws := rfl
@[simp] theorem State.disarm_host : (s.disarm).host = s.host := rfl

/-! ### setHost -/

@[simp] theorem State.setHost_mem (l : List HostOp) : (s.setHost l).mem = s.mem := rfl
@[simp] theorem State.setHost_v (l : List HostOp) : (s.setHost l).v = s.v := rfl
@[simp] theorem State.setHost_i (l : List HostOp) : (s.setHost l).i = s.i := rfl
@[simp] theorem State.setHost_pc (l : List HostOp) : (s.setHost l).pc = s.pc := rfl
@[simp] theorem State.setHost_stack (l : List HostOp) : (s.setHost l).stack = s.stack := rfl
@[simp] theorem State.setHost_dt (l : List HostOp) : (s.setHost l).dt = s.dt := rfl
@[simp] theorem State.setHost_st (l : List HostOp) : (s.setHost l).st = s.st := rfl
@[simp] theorem State.setHost_acc (l : List HostOp) : (s.setHost l).acc = s.acc := rfl
@[simp] theorem State.setHost_fb (l : List HostOp) : (s.setHost l).fb = s.fb := rfl
@[simp] theorem State.setHost_keys (l : List HostOp) : (s.setHost l).keys = s.keys := rfl
@[simp] theorem State.setHost_waiting (l : List HostOp) : (s.setHost l).waiting = s.waiting := rfl
@[simp] theorem State.setHost_waitReg (l : List HostOp) : (s.setHost l).waitReg = s.waitReg := rfl
@[simp] theorem State.setHost_halt (l : List HostOp) : (s.setHost l).halt = s.halt := rfl
@[simp] theorem State.setHost_randBytes (l : List HostOp) : (s.setHost l).randBytes = s.randBytes := rfl
@[simp] theorem State.setHost_draws (l : List HostOp) : (s.setHost l).draws = s.draws := rfl
@[simp] theorem State.setHost_host (l : List HostOp) : (s.setHost l).host = l := rfl

/-! ### Reads of the parts an update does not touch -/

@[simp] theorem State.readByte_setHalt (r : HaltReason) (b : Nat) : (s.setHalt r).readByte b = s.readByte b := rfl
@[simp] theorem State.readV_setHalt (r : HaltReason) (q : Reg) : (s.setHalt r).readV q = s.readV q := rfl
@[simp] theorem State.pixel_setHalt (r : HaltReason) (c d : Nat) : (s.setHalt r).pixel c d = s.pixel c d := rfl
@[simp] theorem State.keyDown_setHalt (r : HaltReason) (j : Key) : (s.setHalt r).keyDown j = s.keyDown j := rfl
@[simp] theorem State.readByte_setFb (f : Framebuffer) (b : Nat) : (s.setFb f).readByte b = s.readByte b := rfl
@[simp] theorem State.readV_setFb (f : Framebuffer) (q : Reg) : (s.setFb f).readV q = s.readV q := rfl
@[simp] theorem State.keyDown_setFb (f : Framebuffer) (j : Key) : (s.setFb f).keyDown j = s.keyDown j := rfl
@[simp] theorem State.readByte_setStack (l : List Word) (b : Nat) : (s.setStack l).readByte b = s.readByte b := rfl
@[simp] theorem State.readV_setStack (l : List Word) (q : Reg) : (s.setStack l).readV q = s.readV q := rfl
@[simp] theorem State.pixel_setStack (l : List Word) (c d : Nat) : (s.setStack l).pixel c d = s.pixel c d := rfl
@[simp] theorem State.keyDown_setStack (l : List Word) (j : Key) : (s.setStack l).keyDown j = s.keyDown j := rfl
@[simp] theorem State.readByte_disarm (b : Nat) : (s.disarm).readByte b = s.readByte b := rfl
@[simp] theorem State.readV_disarm (q : Reg) : (s.disarm).readV q = s.readV q := rfl
@[simp] theorem State.pixel_disarm (c d : Nat) : (s.disarm).pixel c d = s.pixel c d := rfl
@[simp] theorem State.keyDown_disarm (j : Key) : (s.disarm).keyDown j = s.keyDown j := rfl
@[simp] theorem State.readByte_setHost (l : List HostOp) (b : Nat) : (s.setHost l).readByte b = s.readByte b := rfl
@[simp] theorem State.readV_setHost (l : List HostOp) (q : Reg) : (s.setHost l).readV q = s.readV q := rfl
@[simp] theorem State.pixel_setHost (l : List HostOp) (c d : Nat) : (s.setHost l).pixel c d = s.pixel c d := rfl
@[simp] theorem State.keyDown_setHost (l : List HostOp) (j : Key) : (s.setHost l).keyDown j = s.keyDown j := rfl
@[simp] theorem State.readV_writeByte (a : Nat) (w : Byte) (r : Reg) : (s.writeByte a w).readV r = s.readV r := rfl
@[simp] theorem State.pixel_writeByte (a : Nat) (w : Byte) (c r : Nat) : (s.writeByte a w).pixel c r = s.pixel c r := rfl
@[simp] theorem State.keyDown_writeByte (a : Nat) (w : Byte) (j : Key) : (s.writeByte a w).keyDown j = s.keyDown j := rfl
@[simp] theorem State.readByte_writeV (x : Reg) (w : Byte) (b : Nat) : (s.writeV x w).readByte b = s.readByte b := rfl
@[simp] theorem State.pixel_writeV (x : Reg) (w : Byte) (c r : Nat) : (s.writeV x w).pixel c r = s.pixel c r := rfl
@[simp] theorem State.keyDown_writeV (x : Reg) (w : Byte) (j : Key) : (s.writeV x w).keyDown j = s.keyDown j := rfl
@[simp] theorem State.readByte_setI (w : Word) (b : Nat) : (s.setI w).readByte b = s.readByte b := rfl
@[simp] theorem State.readV_setI (w : Word) (r : Reg) : (s.setI w).readV r = s.readV r := rfl
@[simp] theorem State.pixel_setI (w : Word) (c r : Nat) : (s.setI w).pixel c r = s.pixel c r := rfl
@[simp] theorem State.keyDown_setI (w : Word) (j : Key) : (s.setI w).keyDown j = s.keyDown j := rfl
@[simp] theorem State.readByte_setPc (w : Word) (b : Nat) : (s.setPc w).readByte b = s.readByte b := rfl
@[simp] theorem State.readV_setPc (w : Word) (r : Reg) : (s.setPc w).readV r = s.readV r := rfl
@[simp] theorem State.pixel_setPc (w : Word) (c r : Nat) : (s.setPc w).pixel c r = s.pixel c r := rfl
@[simp] theorem State.keyDown_setPc (w : Word) (j : Key) : (s.setPc w).keyDown j = s.keyDown j := rfl
@[simp] theorem State.readByte_advancePc (b : Nat) : (s.advancePc).readByte b = s.readByte b := rfl
@[simp] theorem State.readV_advancePc (r : Reg) : (s.advancePc).readV r = s.readV r := rfl
@[simp] theorem State.pixel_advancePc (c r : Nat) : (s.advancePc).pixel c r = s.pixel c r := rfl
@[simp] theorem State.keyDown_advancePc (j : Key) : (s.advancePc).keyDown j = s.keyDown j := rfl
@[simp] theorem State.readByte_push (w : Word) (b : Nat) : (s.push w).readByte b = s.readByte b := rfl
@[simp] theorem State.readV_push (w : Word) (r : Reg) : (s.push w).readV r = s.readV r := rfl
@[simp] theorem State.pixel_push (w : Word) (c r : Nat) : (s.push w).pixel c r = s.pixel c r := rfl
@[simp] theorem State.keyDown_push (w : Word) (j : Key) : (s.push w).keyDown j = s.keyDown j := rfl
@[simp] theorem State.readByte_drawn (b : Nat) : (s.drawn).readByte b = s.readByte b := rfl
@[simp] theorem State.readV_drawn (r : Reg) : (s.drawn).readV r = s.readV r := rfl
@[simp] theorem State.pixel_drawn (c r : Nat) : (s.drawn).pixel c r = s.pixel c r := rfl
@[simp] theorem State.keyDown_drawn (j : Key) : (s.drawn).keyDown j = s.keyDown j := rfl
@[simp] theorem State.readByte_elapse (e : Rat) (b : Nat) : (s.elapse e).readByte b = s.readByte b := rfl
@[simp] theorem State.readV_elapse (e : Rat) (r : Reg) : (s.elapse e).readV r = s.readV r := rfl
@[simp] theorem State.pixel_elapse (e : Rat) (c r : Nat) : (s.elapse e).pixel c r = s.pixel c r := rfl
@[simp] theorem State.keyDown_elapse (e : Rat) (j : Key) : (s.elapse e).keyDown j = s.keyDown j := rfl
@[simp] theorem State.readByte_setDt (w : Byte) (b : Nat) : (s.setDt w).readByte b = s.readByte b := rfl
@[simp] theorem State.readV_setDt (w : Byte) (r : Reg) : (s.setDt w).readV r = s.readV r := rfl
@[simp] theorem State.pixel_setDt (w : Byte) (c r : Nat) : (s.setDt w).pixel c r = s.pixel c r := rfl
@[simp] theorem State.keyDown_setDt (w : Byte) (j : Key) : (s.setDt w).keyDown j = s.keyDown j := rfl
@[simp] theorem State.readByte_setSt (w : Byte) (b : Nat) : (s.setSt w).readByte b = s.readByte b := rfl
@[simp] theorem State.readV_setSt (w : Byte) (r : Reg) : (s.setSt w).readV r = s.readV r := rfl
@[simp] theorem State.pixel_setSt (w : Byte) (c r : Nat) : (s.setSt w).pixel c r = s.pixel c r := rfl
@[simp] theorem State.keyDown_setSt (w : Byte) (j : Key) : (s.setSt w).keyDown j = s.keyDown j := rfl
@[simp] theorem State.readByte_setKey (k : Key) (down : Bool) (b : Nat) : (s.setKey k down).readByte b = s.readByte b := rfl
@[simp] theorem State.readV_setKey (k : Key) (down : Bool) (r : Reg) : (s.setKey k down).readV r = s.readV r := rfl
@[simp] theorem State.pixel_setKey (k : Key) (down : Bool) (c r : Nat) : (s.setKey k down).pixel c r = s.pixel c r := rfl
@[simp] theorem State.readByte_arm (x : Reg) (b : Nat) : (s.arm x).readByte b = s.readByte b := rfl
@[simp] theorem State.readV_arm (x : Reg) (r : Reg) : (s.arm x).readV r = s.readV r := rfl
@[simp] theorem State.pixel_arm (x : Reg) (c r : Nat) : (s.arm x).pixel c r = s.pixel c r := rfl
@[simp] theorem State.keyDown_arm (x : Reg) (j : Key) : (s.arm x).keyDown j = s.keyDown j := rfl

@[simp] theorem State.pixel_setFb (f : Framebuffer) (c r : Nat) : (s.setFb f).pixel c r = f.get c r := rfl

/-! ### Updates that are made of others -/

@[simp] theorem State.skipIf_false : s.skipIf false = s := rfl
@[simp] theorem State.skipIf_true : s.skipIf true = s.advancePc := rfl

/-- What skipping can do: PC moves on by 2 where the condition holds, and that is all. -/
theorem State.skipIf_eq (c : Bool) : s.skipIf c = { s with pc := if c then s.pc + 2 else s.pc } := by
  cases c <;> rfl

@[simp] theorem State.skipIf_mem (c : Bool) : (s.skipIf c).mem = s.mem := by cases c <;> rfl
@[simp] theorem State.skipIf_v (c : Bool) : (s.skipIf c).v = s.v := by cases c <;> rfl
@[simp] theorem State.skipIf_i (c : Bool) : (s.skipIf c).i = s.i := by cases c <;> rfl
@[simp] theorem State.skipIf_stack (c : Bool) : (s.skipIf c).stack = s.stack := by cases c <;> rfl
@[simp] theorem State.skipIf_dt (c : Bool) : (s.skipIf c).dt = s.dt := by cases c <;> rfl
@[simp] theorem State.skipIf_st (c : Bool) : (s.skipIf c).st = s.st := by cases c <;> rfl
@[simp] theorem State.skipIf_acc (c : Bool) : (s.skipIf c).acc = s.acc := by cases c <;> rfl
@[simp] theorem State.skipIf_fb (c : Bool) : (s.skipIf c).fb = s.fb := by cases c <;> rfl
@[simp] theorem State.skipIf_keys (c : Bool) : (s.skipIf c).keys = s.keys := by cases c <;> rfl
@[simp] theorem State.skipIf_waiting (c : Bool) : (s.skipIf c).waiting = s.waiting := by cases c <;> rfl
@[simp] theorem State.skipIf_waitReg (c : Bool) : (s.skipIf c).waitReg = s.waitReg := by cases c <;> rfl
@[simp] theorem State.skipIf_halt (c : Bool) : (s.skipIf c).halt = s.halt := by cases c <;> rfl
@[simp] theorem State.skipIf_randBytes (c : Bool) : (s.skipIf c).randBytes = s.randBytes := by cases c <;> rfl
@[simp] theorem State.skipIf_draws (c : Bool) : (s.skipIf c).draws = s.draws := by cases c <;> rfl
@[simp] theorem State.skipIf_host (c : Bool) : (s.skipIf c).host = s.host := by cases c <;> rfl
@[simp] theorem State.skipIf_pc (c : Bool) : (s.skipIf c).pc = if c then s.pc + 2 else s.pc := by cases c <;> rfl
@[simp] theorem State.readByte_skipIf (c : Bool) (b : Nat) : (s.skipIf c).readByte b = s.readByte b := by cases c <;> rfl
@[simp] theorem State.readV_skipIf (c : Bool) (r : Reg) : (s.skipIf c).readV r = s.readV r := by cases c <;> rfl
@[simp] theorem State.pixel_skipIf (c : Bool) (d r : Nat) : (s.skipIf c).pixel d r = s.pixel d r := by cases c <;> rfl
@[simp] theorem State.keyDown_skipIf (c : Bool) (j : Key) : (s.skipIf c).keyDown j = s.keyDown j := by cases c <;> rfl

/-- The clock is the three fields. -/
@[simp] theorem State.clock_dt : s.clock.dt = s.dt := rfl
@[simp] theorem State.clock_st : s.clock.st = s.st := rfl
@[simp] theorem State.clock_acc : s.clock.acc = s.acc := rfl

/-- Whether the core is halted is in one field. -/
theorem State.halted_eq_false_iff : s.halted = false ↔ s.halt = none := by
  simp [State.halted]

theorem State.halted_eq_true_iff : s.halted = true ↔ ∃ r, s.halt = some r := by
  simp [State.halted, Option.isSome_iff_exists]

end Sys2Proof.Machine
end

