-- ==== Sys2Proof/Laws/Memory.lean ====
section
/-! SUPPORT. The laws of memory: a read after a write, and the canonical form. -/

namespace Sys2Proof.Machine

@[simp] theorem Memory.read_nil (a : Nat) : Memory.read [] a = initialByte a := rfl

theorem Memory.read_cons (b : Nat) (w : Byte) (m : Memory) (a : Nat) :
    Memory.read ((b, w) :: m) a = if b = a then w else Memory.read m a := rfl

/-- Removing the cells of one address leaves every other address alone. -/
theorem Memory.read_filter_ne (m : Memory) {a b : Nat} (h : b ≠ a) :
    Memory.read (m.filter (fun p => p.1 != a)) b = Memory.read m b := by
  induction m with
  | nil => rfl
  | cons p m ih =>
    obtain ⟨c, w⟩ := p
    by_cases hc : c = a
    · subst hc
      simp [Memory.read_cons, ih, Ne.symm h]
    · simp [hc, Memory.read_cons, ih]

/-- An address with no cell reads as construction left it. -/
theorem Memory.read_filter_self (m : Memory) (a : Nat) :
    Memory.read (m.filter (fun p => p.1 != a)) a = initialByte a := by
  induction m with
  | nil => rfl
  | cons p m ih =>
    obtain ⟨c, w⟩ := p
    by_cases hc : c = a
    · simp [hc, ih]
    · simp [hc, Memory.read_cons, ih]

theorem Memory.read_insert_ne (m : Memory) {a b : Nat} (w : Byte) (h : b ≠ a) :
    Memory.read (Memory.insert m a w) b = Memory.read m b := by
  induction m with
  | nil => simp [Memory.insert, Memory.read_cons, Ne.symm h]
  | cons p m ih =>
    obtain ⟨c, x⟩ := p
    simp only [Memory.insert]
    split
    · simp [Memory.read_cons, Ne.symm h]
    · simp [Memory.read_cons, ih]

theorem Memory.read_insert_self (m : Memory) (a : Nat) (w : Byte) (h : ∀ p ∈ m, p.1 ≠ a) :
    Memory.read (Memory.insert m a w) a = w := by
  induction m with
  | nil => simp [Memory.insert, Memory.read_cons]
  | cons p m ih =>
    obtain ⟨c, x⟩ := p
    have hc : c ≠ a := h (c, x) (by simp)
    simp only [Memory.insert]
    split
    · simp [Memory.read_cons]
    · simp [Memory.read_cons, hc, ih (fun p hp => h p (by simp [hp]))]

/-- A read after a write: the written address gives the byte, every other address what it gave before. It holds of every
list of cells, canonical or not. -/
theorem Memory.read_write (m : Memory) (a b : Nat) (w : Byte) :
    (m.write a w).read b = if b = a then w else m.read b := by
  unfold Memory.write
  by_cases hb : b = a
  · subst hb
    split
    · next h => simp [Memory.read_filter_self, h]
    · simp [Memory.read_insert_self]
  · split
    · simp [Memory.read_filter_ne m hb]
    · simp [Memory.read_insert_ne _ w hb, Memory.read_filter_ne m hb]

@[simp] theorem State.readByte_writeByte (s : State) (a b : Nat) (w : Byte) :
    (s.writeByte a w).readByte b = if b = a then w else s.readByte b := Memory.read_write s.mem a b w

/-! ### The canonical form -/

theorem Memory.mem_insert (m : Memory) (a : Nat) (w : Byte) (p : Host.Cell) :
    p ∈ Memory.insert m a w ↔ p = (a, w) ∨ p ∈ m := by
  induction m with
  | nil => simp [Memory.insert]
  | cons q m ih =>
    obtain ⟨c, x⟩ := q
    simp only [Memory.insert]
    split
    · simp
    · simp [ih, or_left_comm]

theorem Memory.pairwise_insert (m : Memory) (a : Nat) (w : Byte) (hm : m.Pairwise (fun p q => p.1 < q.1))
    (ha : ∀ p ∈ m, p.1 ≠ a) : (Memory.insert m a w).Pairwise (fun p q => p.1 < q.1) := by
  induction m with
  | nil => simp [Memory.insert]
  | cons q m ih =>
    obtain ⟨c, x⟩ := q
    obtain ⟨hq, hm⟩ := List.pairwise_cons.mp hm
    have hc : c ≠ a := ha (c, x) (by simp)
    simp only [Memory.insert]
    split
    · next h =>
      refine List.pairwise_cons.mpr ⟨?_, List.pairwise_cons.mpr ⟨hq, hm⟩⟩
      rintro p hp
      rcases List.mem_cons.mp hp with rfl | hp
      · exact h
      · exact lt_trans h (hq p hp)
    · next h =>
      refine List.pairwise_cons.mpr ⟨?_, ih hm (fun p hp => ha p (by simp [hp]))⟩
      intro p hp
      rcases (Memory.mem_insert m a w p).mp hp with rfl | hp
      · show c < a
        omega
      · exact hq p hp

/-- A write inside memory keeps the canonical form. -/
theorem Memory.wf_write {m : Memory} (hm : m.wf) {a : Nat} (ha : a < Config.memSize) (w : Byte) : (m.write a w).wf := by
  obtain ⟨hs, hc⟩ := hm
  have hs' : (m.filter (fun p => p.1 != a)).Pairwise (fun p q => p.1 < q.1) := hs.filter _
  have hc' : ∀ p ∈ m.filter (fun p => p.1 != a), p.1 < Config.memSize ∧ p.2 ≠ initialByte p.1 :=
    fun p hp => hc p (List.mem_filter.mp hp).1
  have hne : ∀ p ∈ m.filter (fun p => p.1 != a), p.1 ≠ a := fun p hp => by
    simpa using (List.mem_filter.mp hp).2
  unfold Memory.write
  split
  · exact ⟨hs', hc'⟩
  · next h =>
    refine ⟨Memory.pairwise_insert _ a w hs' hne, fun p hp => ?_⟩
    rcases (Memory.mem_insert _ a w p).mp hp with rfl | hp
    · exact ⟨ha, h⟩
    · exact hc' p hp

/-- Memory as construction leaves it lists nothing and is canonical. -/
theorem Memory.wf_nil : Memory.wf [] := by simp [Memory.wf]

/-- The reset state's memory is canonical. -/
theorem reset_memory_wf : State.reset.mem.wf := Memory.wf_nil

/-- The memory of a list of at most 4096 bytes is canonical. -/
theorem Memory.wf_ofBytes {bytes : List Byte} (h : bytes.length ≤ Config.memSize) : (Memory.ofBytes bytes).wf := by
  unfold Memory.ofBytes
  constructor
  · refine List.Pairwise.filter _ ?_
    rw [List.pairwise_iff_getElem]
    intro i j hi hj hij
    simpa using hij
  · rintro ⟨a, w⟩ hp
    obtain ⟨hz, hw⟩ := List.mem_filter.mp hp
    have : a < bytes.length := by simpa using (List.of_mem_zip hz).1
    exact ⟨by simp only; omega, by simpa using hw⟩

end Sys2Proof.Machine
end

