-- ==== Sys2Proof/Laws/Ops.lean ====
section
/-! SUPPORT. One law per shared operation: registers, pixels, halting, range checks, keys, time, fetching. -/

namespace Sys2Proof.Machine

/-! ### Registers -/

@[simp] theorem State.readV_writeV (s : State) (x r : Reg) (w : Byte) :
    (s.writeV x w).readV r = if r = x then w else s.readV r := by
  by_cases h : r = x
  · subst h
    simp [State.readV]
  · have : x.val ≠ r.val := fun e => h (Fin.ext e.symm)
    simp [State.readV, h, this]

@[simp] theorem State.readV_writeResultFlag (s : State) (x r : Reg) (w f : Byte) :
    (s.writeResultFlag x w f).readV r = if r = VF then f else if r = x then w else s.readV r := by
  simp [State.writeResultFlag]

/-- Writing a result and a flag changes the registers and nothing else. -/
theorem State.writeResultFlag_eq (s : State) (x : Reg) (w f : Byte) :
    s.writeResultFlag x w f = { s with v := (s.v.set x w).set VF f } := rfl

/-! ### Pixels -/

@[simp] theorem columnBit_getMsbD (c d : Nat) : (columnBit c).getMsbD d = (decide (d = c) && decide (c < 64)) := by
  have h : (0x8000000000000000#64) = BitVec.twoPow 64 63 := by decide
  rw [columnBit, h]
  by_cases hd : d < 64
  · by_cases hc : d = c
    · subst hc
      simp [BitVec.getMsbD, BitVec.getLsbD_ushiftRight, BitVec.getLsbD_twoPow, hd]
      omega
    · simp [BitVec.getMsbD, BitVec.getLsbD_ushiftRight, BitVec.getLsbD_twoPow, hc]
      omega
  · by_cases hc : d = c
    · subst hc
      simp [BitVec.getMsbD, hd]
    · simp [BitVec.getMsbD, hd, hc]

/-- A flip changes the one pixel, where it is on the screen. -/
theorem Framebuffer.get_flip (fb : Framebuffer) (c r d q : Nat) :
    (fb.flip c r).get d q = (fb.get d q ^^ (decide (d = c) && decide (q = r) && decide (c < 64) && decide (r < 32))) := by
  unfold Framebuffer.flip Framebuffer.get
  by_cases hr : r < 32
  · by_cases hq : q < 32
    · by_cases he : q = r
      · subst he
        simp [hq]
      · simp [hr, hq, he, Ne.symm he]
    · simp [hr, hq]
      omega
  · simp [hr]

@[simp] theorem Framebuffer.get_clear (c r : Nat) : Framebuffer.clear.get c r = false := by
  simp [Framebuffer.get, Framebuffer.clear]

/-- A pixel outside the screen reads false. -/
theorem Framebuffer.get_outside (fb : Framebuffer) {c r : Nat} (h : ¬ (c < 64 ∧ r < 32)) : fb.get c r = false := by
  unfold Framebuffer.get
  split
  · next hr => exact BitVec.getMsbD_of_ge _ _ (by omega)
  · rfl

/-- Two framebuffers whose pixels agree are the same data. -/
theorem Framebuffer.ext_get {f g : Framebuffer} (h : ∀ c r, f.get c r = g.get c r) : f = g := by
  apply Vector.ext
  intro r hr
  apply BitVec.eq_of_getMsbD_eq
  intro c hc
  simpa [Framebuffer.get, hr] using h c r

/-! ### Halting and checks -/

/-- A halt answers the same state with the reason recorded. -/
theorem raiseHalt_next {r : HaltReason} {s t : State} : raiseHalt r s = .next t ↔ t = s.setHalt r := by
  simp [raiseHalt, eq_comm]

/-- A range check runs its continuation or halts. -/
theorem withBytes_cases (a n : Nat) (s : State) (k : Result) :
    (a + n ≤ Config.memSize ∧ withBytes a n s k = k) ∨
    (Config.memSize < a + n ∧ withBytes a n s k = raiseHalt .memoryOutOfRange s) := by
  unfold withBytes
  by_cases h : a + n ≤ Config.memSize
  · exact .inl ⟨h, if_pos h⟩
  · exact .inr ⟨Nat.lt_of_not_le h, if_neg h⟩

theorem withBytes_pos {a n : Nat} (h : a + n ≤ Config.memSize) (s : State) (k : Result) : withBytes a n s k = k :=
  if_pos h

theorem withBytes_neg {a n : Nat} (h : Config.memSize < a + n) (s : State) (k : Result) :
    withBytes a n s k = raiseHalt .memoryOutOfRange s := if_neg (Nat.not_le_of_gt h)

/-- A key index runs its continuation or halts. -/
theorem withKey_pos {v : Byte} (h : v.toNat < 16) (s : State) (k : Key → Result) : withKey v s k = k ⟨v.toNat, h⟩ :=
  dif_pos h

theorem withKey_neg {v : Byte} (h : ¬ v.toNat < 16) (s : State) (k : Key → Result) :
    withKey v s k = raiseHalt .keyIndexOutOfRange s := dif_neg h

/-! ### Keys -/

@[simp] theorem State.keyDown_setKey (s : State) (k j : Key) (down : Bool) :
    (s.setKey k down).keyDown j = if j = k then down else s.keyDown j := by
  by_cases h : j = k
  · subst h
    simp [State.keyDown]
  · have : k.val ≠ j.val := fun e => h (Fin.ext e.symm)
    simp [State.keyDown, h, this]

/-- Resolving a wait clears the flag, writes the target register, and leaves the rest. -/
theorem State.resolveWait_eq (s : State) (k : Key) :
    s.resolveWait k = { s with waiting := false, v := s.v.set s.waitReg (BitVec.ofNat 8 k.val) } := rfl

@[simp] theorem State.readV_resolveWait (s : State) (k : Key) (r : Reg) :
    (s.resolveWait k).readV r = if r = s.waitReg then BitVec.ofNat 8 k.val else s.readV r := by
  simp [State.resolveWait]

/-- An index outside 0 to 15 is ignored. -/
theorem setKeydown_outside {k : Int} (h : ¬ (0 ≤ k ∧ k ≤ 15)) (down : Bool) (s : State) : setKeydown k down s = s :=
  if_neg h

/-- An index inside 0 to 15: the state of the key is recorded, and the wait resolved on a qualifying release. -/
theorem setKeydown_key (k : Key) (down : Bool) (s : State) :
    setKeydown (k.val : Int) down s =
      if s.waiting && s.keyDown k && !down then (s.setKey k down).resolveWait k else s.setKey k down := by
  have hk := k.isLt
  have h1 : (0 : Int) ≤ (k.val : Int) ∧ (k.val : Int) ≤ 15 := by omega
  have h2 : Fin.ofNat 16 ((k.val : Int)).toNat = k := by
    apply Fin.ext
    simp
  unfold setKeydown
  rw [if_pos h1]
  simp only [h2]

/-! ### Time -/

@[simp] theorem takeTicks_zero (c : Clock) : takeTicks 0 c = c := rfl

theorem takeTicks_succ (n : Nat) (c : Clock) :
    takeTicks (n + 1) c =
      if Config.tick ≤ c.acc then takeTicks n ⟨satdec c.dt, satdec c.st, c.acc - Config.tick⟩ else c := rfl

theorem satdec_toNat (t : Byte) : (satdec t).toNat = t.toNat - 1 := by
  unfold satdec
  split
  · next h => simp [h]
  · next h =>
    have h1 : t.toNat ≠ 0 := fun e => h (BitVec.eq_of_toNat_eq (by simpa using e))
    have := t.isLt
    rw [BitVec.toNat_sub]
    have : (1 : Byte).toNat = 1 := rfl
    omega

/-! ### Random source, fetch, construction -/

theorem State.nextRandom_known (s : State) (r : Byte) (rest : List Byte) (h : s.randBytes = r :: rest) :
    s.nextRandom = r := by
  simp [State.nextRandom, h]

/-- A fetch reads the two bytes at PC, or nothing where the second does not exist. -/
theorem State.fetch_eq_some {s : State} {w : Word} : s.fetch = some w ↔
    s.pc.toNat + 1 < Config.memSize ∧ wordOfBytes (s.readByte s.pc.toNat) (s.readByte (s.pc.toNat + 1)) = w := by
  unfold State.fetch
  split <;> simp_all

theorem State.fetch_eq_none {s : State} : s.fetch = none ↔ Config.memSize ≤ s.pc.toNat + 1 := by
  unfold State.fetch
  split <;> simp_all

/-- A legal image has 4096 bytes. -/
theorem wellFormedImage_iff {image : List Byte} : wellFormedImage image = true ↔ image.length = 4096 := by
  simp [wellFormedImage, Config.memSize]

/-- A legal ROM starts at 0x200 or above and fits below 4096. -/
theorem wellFormedRom_iff {rom : List Byte} {load : Word} :
    wellFormedRom rom load = true ↔ 0x200 ≤ load.toNat ∧ load.toNat + rom.length ≤ 4096 := by
  rw [wellFormedRom, Bool.and_eq_true, decide_eq_true_iff, decide_eq_true_iff]

/-- A legal elapsed time is not negative. -/
theorem wellFormedElapsed_iff {e : Rat} : wellFormedElapsed e = true ↔ 0 ≤ e := by
  simp [wellFormedElapsed]

/-- The halves of a word make it up again. -/
@[simp] theorem wordOfBytes_halves (w : Word) : wordOfBytes (highByte w) (lowByte w) = w := by
  apply BitVec.eq_of_getLsbD_eq
  intro i hi
  simp only [wordOfBytes, highByte, lowByte, BitVec.getLsbD_append, BitVec.getLsbD_extractLsb']
  by_cases h : i < 8
  · simp [h]
  · have : 8 + (i - 8) = i := by omega
    simp [h, this]
    omega

end Sys2Proof.Machine
end

