-- ==== Sys2Proof/Laws/Display.lean ====
section
/-! SUPPORT. The laws of sprite drawing: what one bit, one row and a whole sprite do to every pixel and to the collision
flag. -/

namespace Sys2Proof.Machine

/-- Whether a sprite byte drawn on `row` from column `cx` has a set bit on column `c` of row `r` of the screen, among its
first `m` bits. -/
def rowBit (b : Byte) (cx row m c r : Nat) : Bool :=
  decide (r = row) && decide (c < 64) && decide (r < 32) && decide (cx ≤ c) && decide (c < cx + m) &&
    b.getLsbD (7 - (c - cx))

/-- One set bit flips its pixel, where it is on the screen. -/
theorem drawPixel_get (p : Canvas) (c row d q : Nat) :
    (drawPixel p c row).1.get d q =
      (p.1.get d q ^^ (decide (d = c) && decide (q = row) && decide (c < 64) && decide (row < 32))) := by
  unfold drawPixel
  split
  · exact Framebuffer.get_flip _ _ _ _ _
  · next h =>
    rw [not_and_or] at h
    rcases h with h | h
    · have : ¬ c < 64 := h
      simp [this]
    · have : ¬ row < 32 := h
      simp [this]

/-- One set bit collides exactly where its pixel was set. -/
theorem drawPixel_hit (p : Canvas) (c row : Nat) : (drawPixel p c row).2 = (p.2 || p.1.get c row) := by
  unfold drawPixel
  split
  · rfl
  · next h => simp [Framebuffer.get_outside p.1 h]

/-- Bit `7 - j` of a sprite byte flips the pixel it falls on. -/
theorem drawBit_get (b : Byte) (cx row : Nat) (p : Canvas) (j c r : Nat) :
    (drawBit b cx row p j).1.get c r = (p.1.get c r ^^ (decide (c = cx + j) && decide (r = row) &&
      decide (cx + j < 64) && decide (row < 32) && b.getLsbD (7 - j))) := by
  unfold drawBit
  split
  · next h => simp [drawPixel_get, h]
  · next h => simp [h]

/-- Bit `7 - j` of a sprite byte collides where it is set and falls on a set pixel. -/
theorem drawBit_hit (b : Byte) (cx row : Nat) (p : Canvas) (j : Nat) :
    (drawBit b cx row p j).2 = (p.2 || (b.getLsbD (7 - j) && p.1.get (cx + j) row)) := by
  unfold drawBit
  split
  · next h => simp [drawPixel_hit, h]
  · next h => simp [h]

/-- One more bit of a row. -/
theorem rowBit_succ (b : Byte) (cx row m c r : Nat) :
    rowBit b cx row (m + 1) c r = if c = cx + m then
      decide (r = row) && decide (c < 64) && decide (r < 32) && b.getLsbD (7 - m) else rowBit b cx row m c r := by
  split
  · next h => simp [rowBit, h]
  · next h =>
    have : decide (c < cx + (m + 1)) = decide (c < cx + m) := by
      rw [decide_eq_decide]
      omega
    simp only [rowBit, this]

/-- The bits taken so far do not reach the next column. -/
theorem rowBit_next (b : Byte) (cx row m r : Nat) : rowBit b cx row m (cx + m) r = false := by simp [rowBit]

/-- The first `m` bits of a sprite byte flip the pixels they fall on. -/
theorem drawBits_get (b : Byte) (cx row m : Nat) (p : Canvas) (c r : Nat) :
    ((List.range m).foldl (drawBit b cx row) p).1.get c r = (p.1.get c r ^^ rowBit b cx row m c r) := by
  induction m with
  | zero =>
    by_cases h : cx ≤ c
    · simp [rowBit, Nat.not_lt_of_le h]
    · simp [rowBit, h]
  | succ m ih =>
    rw [List.range_succ, List.foldl_append]
    simp only [List.foldl_cons, List.foldl_nil, drawBit_get, ih, rowBit_succ]
    by_cases hc : c = cx + m
    · subst hc
      rw [rowBit_next]
      by_cases hr : r = row
      · simp [hr]
      · simp [hr]
    · simp [hc]

/-- The first `m` bits of a sprite byte collide exactly where one of them falls on a set pixel. -/
theorem drawBits_hit (b : Byte) (cx row m : Nat) (p : Canvas) :
    ((List.range m).foldl (drawBit b cx row) p).2 = true ↔
      p.2 = true ∨ ∃ c, p.1.get c row = true ∧ rowBit b cx row m c row = true := by
  induction m with
  | zero =>
    have : ∀ c, rowBit b cx row 0 c row = false := by
      intro c
      by_cases h : cx ≤ c
      · simp [rowBit, h]
      · simp [rowBit, h]
    simp [this]
  | succ m ih =>
    have hnew : ∀ c, (p.1.get c row = true ∧ rowBit b cx row (m + 1) c row = true) ↔
        (p.1.get c row = true ∧ rowBit b cx row m c row = true) ∨
          (c = cx + m ∧ b.getLsbD (7 - m) = true ∧ p.1.get c row = true) := by
      intro c
      rw [rowBit_succ]
      by_cases hs : c < 64 ∧ row < 32
      · by_cases hc : c = cx + m
        · rw [if_pos hc, hc, rowBit_next]
          rw [hc] at hs
          simp [hs.1, hs.2, and_comm]
        · simp [hc]
      · simp [Framebuffer.get_outside p.1 hs]
    rw [List.range_succ, List.foldl_append]
    simp only [List.foldl_cons, List.foldl_nil, drawBit_hit, drawBits_get, rowBit_next, Bool.xor_false,
      Bool.or_eq_true, Bool.and_eq_true, ih, hnew, or_assoc, exists_or, exists_eq_left]

/-- One sprite byte flips the pixels its set bits fall on. -/
theorem drawRow_get (b : Byte) (cx row : Nat) (p : Canvas) (c r : Nat) :
    (drawRow b cx row p).1.get c r = (p.1.get c r ^^ rowBit b cx row 8 c r) := drawBits_get b cx row 8 p c r

/-- One sprite byte collides exactly where one of its set bits falls on a set pixel. -/
theorem drawRow_hit (b : Byte) (cx row : Nat) (p : Canvas) :
    (drawRow b cx row p).2 = true ↔ p.2 = true ∨ ∃ c, p.1.get c row = true ∧ rowBit b cx row 8 c row = true :=
  drawBits_hit b cx row 8 p

/-- A sprite of `n` bytes at address `a`: whether it has a set bit on column `c` of row `r` of the screen. -/
def spriteBitAt (s : State) (a cx cy n c r : Nat) : Bool :=
  decide (c < 64) && decide (r < 32) && decide (cy ≤ r) && decide (r < cy + n) && decide (cx ≤ c) &&
    decide (c < cx + 8) && (s.readByte (a + (r - cy))).getLsbD (7 - (c - cx))

/-- A row of the sprite is the row of its byte. -/
theorem spriteBitAt_succ (s : State) (a cx cy n c r : Nat) :
    spriteBitAt s a cx cy (n + 1) c r =
      if r = cy + n then rowBit (s.readByte (a + n)) cx (cy + n) 8 c r else spriteBitAt s a cx cy n c r := by
  by_cases hr : r = cy + n
  · subst hr
    have : cy + n - cy = n := by omega
    simp [spriteBitAt, rowBit, this]
  · have : decide (r < cy + (n + 1)) = decide (r < cy + n) := by
      rw [decide_eq_decide]
      omega
    simp [spriteBitAt, this, hr]

/-- A sprite flips the pixels its set bits fall on, each once. -/
theorem drawSprite_get (s : State) (a cx cy n c r : Nat) :
    (drawSprite s a cx cy n).1.get c r = (s.pixel c r ^^ spriteBitAt s a cx cy n c r) := by
  induction n with
  | zero =>
    have : spriteBitAt s a cx cy 0 c r = false := by
      by_cases h : r < cy
      · simp [spriteBitAt, Nat.not_le_of_gt h]
      · simp [spriteBitAt, h]
    simp [drawSprite, this, State.pixel]
  | succ n ih =>
    unfold drawSprite at ih ⊢
    rw [List.range_succ, List.foldl_append]
    simp only [List.foldl_cons, List.foldl_nil]
    rw [drawRow_get, ih, spriteBitAt_succ]
    by_cases hr : r = cy + n
    · have h0 : spriteBitAt s a cx cy n c r = false := by simp [spriteBitAt, hr]
      rw [if_pos hr, h0, Bool.xor_false]
    · have h0 : rowBit (s.readByte (a + n)) cx (cy + n) 8 c r = false := by simp [rowBit, hr]
      simp [hr, h0]

/-- A sprite collides exactly where one of its set bits falls on a pixel that was set before it was drawn. -/
theorem drawSprite_hit (s : State) (a cx cy n : Nat) :
    (drawSprite s a cx cy n).2 = true ↔ ∃ c r, s.pixel c r = true ∧ spriteBitAt s a cx cy n c r = true := by
  induction n with
  | zero =>
    have : ∀ c r, spriteBitAt s a cx cy 0 c r = false := by
      intro c r
      by_cases h : r < cy
      · simp [spriteBitAt, Nat.not_le_of_gt h]
      · simp [spriteBitAt, h]
    simp [drawSprite, this]
  | succ n ih =>
    have hg := fun c => drawSprite_get s a cx cy n c (cy + n)
    have h0 : ∀ c, spriteBitAt s a cx cy n c (cy + n) = false := by
      intro c
      simp [spriteBitAt]
    have hs : drawSprite s a cx cy (n + 1) = drawRow (s.readByte (a + n)) cx (cy + n) (drawSprite s a cx cy n) := by
      unfold drawSprite
      rw [List.range_succ, List.foldl_append]
      rfl
    rw [hs, drawRow_hit, ih]
    simp only [hg, h0, Bool.xor_false, spriteBitAt_succ]
    constructor
    · rintro (⟨c, r, h1, h2⟩ | ⟨c, h1, h2⟩)
      · refine ⟨c, r, h1, ?_⟩
        have : r ≠ cy + n := by
          rintro rfl
          rw [h0] at h2
          exact absurd h2 (by simp)
        rw [if_neg this]
        exact h2
      · exact ⟨c, cy + n, h1, by rw [if_pos rfl]; exact h2⟩
    · rintro ⟨c, r, h1, h2⟩
      by_cases hr : r = cy + n
      · subst hr
        rw [if_pos rfl] at h2
        exact .inr ⟨c, h1, h2⟩
      · rw [if_neg hr] at h2
        exact .inl ⟨c, r, h1, h2⟩

end Sys2Proof.Machine
end

