-- ==== Sys2Proof/Laws/Frame.lean ====
section
/-! SUPPORT. The frames of the shared operations, in the terms of Safety.lean. -/

namespace Sys2Proof.Machine

/-- Nothing changes between a state and itself. -/
theorem UnchangedBut.refl (ps : List Part) (s : State) : UnchangedBut ps s s := by
  intro p _
  cases p <;> simp [sameIn]

/-- A frame may name more parts. -/
theorem UnchangedBut.mono {ps qs : List Part} {s t : State} (h : UnchangedBut ps s t) (hq : ∀ p ∈ ps, p ∈ qs) :
    UnchangedBut qs s t := fun p hp => h p (fun hm => hp (hq p hm))

/-- Two changes one after the other. -/
theorem UnchangedBut.trans {ps : List Part} {s t u : State} (h : UnchangedBut ps s t) (k : UnchangedBut ps t u) :
    UnchangedBut ps s u := by
  intro p hp
  have h1 := h p hp
  have h2 := k p hp
  cases p <;> simp_all [sameIn]

/-- Recording a halt is all that `raiseHalt` does. -/
theorem haltsWith_halt (r : HaltReason) (s : State) : HaltsWith r s (s.setHalt r) := by
  refine ⟨rfl, fun p hp => ?_⟩
  cases p <;> simp_all [sameIn]

/-- `raiseHalt` answers a state that differs by the halt. -/
theorem raiseHalt_spec (r : HaltReason) (s : State) : ∃ t, raiseHalt r s = .next t ∧ HaltsWith r s t :=
  ⟨_, rfl, haltsWith_halt r s⟩

/-- Writing a register changes only that register. -/
theorem onlyRegs_writeV {regs : List Reg} {x : Reg} (hx : x ∈ regs) (s : State) (w : Byte) :
    OnlyRegs regs s (s.writeV x w) := by
  constructor
  · intro r hr
    have : r ≠ x := fun e => hr (e ▸ hx)
    simp [this]
  · intro p hp
    cases p <;> simp_all [sameIn]

/-- Writing a result and a flag changes only the two registers. -/
theorem onlyRegs_writeResultFlag (s : State) (x : Reg) (w f : Byte) : OnlyRegs [x, VF] s (s.writeResultFlag x w f) := by
  constructor
  · intro r hr
    simp only [List.mem_cons, List.not_mem_nil, or_false, not_or] at hr
    simp [hr.1, hr.2]
  · intro p hp
    unfold State.writeResultFlag
    cases p <;> simp_all [sameIn]

/-- Setting PC changes only PC. -/
theorem unchangedBut_setPc (s : State) (w : Word) : UnchangedBut [.pc] s (s.setPc w) := by
  intro p hp
  cases p <;> simp_all [sameIn]

/-- Skipping changes only PC. -/
theorem unchangedBut_skipIf (s : State) (c : Bool) : UnchangedBut [.pc] s (s.skipIf c) := by
  intro p hp
  cases p <;> simp_all [sameIn]

/-- Setting the index register changes only it. -/
theorem unchangedBut_setI (s : State) (w : Word) : UnchangedBut [.i] s (s.setI w) := by
  intro p hp
  cases p <;> simp_all [sameIn]

/-- Letting time elapse changes only the timers and the accumulator. -/
theorem unchangedBut_elapse (s : State) (e : Rat) : UnchangedBut [.dt, .st, .acc] s (s.elapse e) := by
  intro p hp
  cases p <;> simp_all [sameIn]

/-- Storing one byte changes only that byte. -/
theorem bytesUnchangedBut_writeByte (s : State) (a : Nat) (w : Byte) :
    BytesUnchangedBut a 1 s (s.writeByte a w) ∧ UnchangedBut [.mem] s (s.writeByte a w) := by
  constructor
  · intro b hb
    have : b ≠ a := by omega
    simp [this]
  · intro p hp
    cases p <;> simp_all [sameIn]

/-- Storing digits keeps the canonical form, where the addresses exist. -/
theorem storeDigits_wf {s : State} (v : Byte) (hs : s.mem.wf) (h : s.i.toNat + 3 ≤ Config.memSize) :
    (storeDigits v s).mem.wf := by
  have h0 : s.i.toNat < Config.memSize := by omega
  have h1 : s.i.toNat + 1 < Config.memSize := by omega
  have h2 : s.i.toNat + 2 < Config.memSize := by omega
  exact Memory.wf_write (Memory.wf_write (Memory.wf_write hs h0 _) h1 _) h2 _

/-- Storing registers one after the other keeps the canonical form, where the addresses exist. -/
theorem storeOne_foldl_wf (js : List Nat) (s : State) (hs : s.mem.wf) (h : s.i.toNat + js.length ≤ Config.memSize) :
    (js.foldl storeOne s).mem.wf := by
  induction js generalizing s with
  | nil => exact hs
  | cons j js ih =>
    rw [List.length_cons] at h
    have h0 : s.i.toNat < Config.memSize := by omega
    refine ih (storeOne s j) (Memory.wf_write hs h0 _) ?_
    have hm : Config.memSize = 4096 := rfl
    have h1 : (storeOne s j).i.toNat = s.i.toNat + 1 := by
      change (s.i + 1).toNat = _
      rw [BitVec.toNat_add]
      have : (1 : Word).toNat = 1 := rfl
      omega
    rw [h1]
    omega

/-- Placing an instruction keeps the canonical form. -/
theorem withFetchWord_wf {s : State} (hs : s.mem.wf) (nbits w : Nat) : (s.withFetchWord nbits w).mem.wf := by
  have h : (fetchPlace s).toNat + 1 < Config.memSize := by
    unfold fetchPlace
    split
    · assumption
    · decide
  have h0 : (fetchPlace s).toNat < Config.memSize := by omega
  exact Memory.wf_write (Memory.wf_write hs h0 _) h _

/-- Resolving a wait clears the flag. -/
@[simp] theorem State.resolveWait_waiting (s : State) (k : Key) : (s.resolveWait k).waiting = false := rfl

end Sys2Proof.Machine
end

