-- ==== Sys2Proof/Laws/PerInstr.lean ====
section
/-! SUPPORT. Statements for all instructions, made per instruction. -/

namespace Sys2Proof.Laws.MatchesRow

/-- The word of an instruction selects a row of the opcode table, and the row reads the instruction back from it
(spec/30_encoding.md R58, R59). -/
def Statement (i : Instr) : Prop := ∃ r ∈ opcodeTable, r.selects (encode i) = true ∧ r.build (encode i) = i

/-- Name the row by its place in the table. -/
theorem of_row {i : Instr} (k : Fin opcodeTable.length)
    (h : (opcodeTable[k]).selects (encode i) = true ∧ (opcodeTable[k]).build (encode i) = i) : Statement i :=
  ⟨opcodeTable[k], List.getElem_mem _, h⟩

theorem cls : Statement (.cls) := by
  exact of_row ⟨0, by decide⟩ ⟨rfl, rfl⟩

theorem ret : Statement (.ret) := by
  exact of_row ⟨1, by decide⟩ ⟨rfl, rfl⟩

theorem jp (addr : BitVec 12) : Statement (.jp addr) := by
  refine of_row ⟨2, by decide⟩ ?_
  rw [encode, wordAddr_nib]
  constructor
  · exact (selects_F000 "JP_addr" (fun w => .jp (fieldAddr w)) 0x1#4 _ _ _ _).trans (by simp)
  · show Instr.jp (fieldAddr (nib _ _ _ _)) = _
    simp [addr_nibbles]

theorem call (addr : BitVec 12) : Statement (.call addr) := by
  refine of_row ⟨3, by decide⟩ ?_
  rw [encode, wordAddr_nib]
  constructor
  · exact (selects_F000 "CALL_addr" (fun w => .call (fieldAddr w)) 0x2#4 _ _ _ _).trans (by simp)
  · show Instr.call (fieldAddr (nib _ _ _ _)) = _
    simp [addr_nibbles]

theorem seK (x : Reg) (k : Byte) : Statement (.seK x k) := by
  refine of_row ⟨4, by decide⟩ ?_
  rw [encode, wordXK_nib]
  constructor
  · exact (selects_F000 "SE_Vx__k" (fun w => .seK (fieldX w) (fieldK w)) 0x3#4 _ _ _ _).trans (by simp)
  · show Instr.seK (fieldX (nib _ _ _ _)) (fieldK (nib _ _ _ _)) = _
    simp [byte_nibbles]

theorem sneK (x : Reg) (k : Byte) : Statement (.sneK x k) := by
  refine of_row ⟨5, by decide⟩ ?_
  rw [encode, wordXK_nib]
  constructor
  · exact (selects_F000 "SNE_Vx__k" (fun w => .sneK (fieldX w) (fieldK w)) 0x4#4 _ _ _ _).trans (by simp)
  · show Instr.sneK (fieldX (nib _ _ _ _)) (fieldK (nib _ _ _ _)) = _
    simp [byte_nibbles]

theorem seV (x : Reg) (y : Reg) : Statement (.seV x y) := by
  refine of_row ⟨6, by decide⟩ ?_
  rw [encode, wordXYN_nib]
  constructor
  · exact (selects_F00F "SE_Vx__Vy" (fun w => .seV (fieldX w) (fieldY w)) 0x5#4 0x0#4 _ _ _ _).trans (by simp)
  · show Instr.seV (fieldX (nib _ _ _ _)) (fieldY (nib _ _ _ _)) = _
    simp

theorem ldK (x : Reg) (k : Byte) : Statement (.ldK x k) := by
  refine of_row ⟨7, by decide⟩ ?_
  rw [encode, wordXK_nib]
  constructor
  · exact (selects_F000 "LD_Vx__k" (fun w => .ldK (fieldX w) (fieldK w)) 0x6#4 _ _ _ _).trans (by simp)
  · show Instr.ldK (fieldX (nib _ _ _ _)) (fieldK (nib _ _ _ _)) = _
    simp [byte_nibbles]

theorem addK (x : Reg) (k : Byte) : Statement (.addK x k) := by
  refine of_row ⟨8, by decide⟩ ?_
  rw [encode, wordXK_nib]
  constructor
  · exact (selects_F000 "ADD_Vx__k" (fun w => .addK (fieldX w) (fieldK w)) 0x7#4 _ _ _ _).trans (by simp)
  · show Instr.addK (fieldX (nib _ _ _ _)) (fieldK (nib _ _ _ _)) = _
    simp [byte_nibbles]

theorem ldV (x : Reg) (y : Reg) : Statement (.ldV x y) := by
  refine of_row ⟨9, by decide⟩ ?_
  rw [encode, wordXYN_nib]
  constructor
  · exact (selects_F00F "LD_Vx__Vy" (fun w => .ldV (fieldX w) (fieldY w)) 0x8#4 0x0#4 _ _ _ _).trans (by simp)
  · show Instr.ldV (fieldX (nib _ _ _ _)) (fieldY (nib _ _ _ _)) = _
    simp

theorem orV (x : Reg) (y : Reg) : Statement (.orV x y) := by
  refine of_row ⟨10, by decide⟩ ?_
  rw [encode, wordXYN_nib]
  constructor
  · exact (selects_F00F "OR_Vx__Vy" (fun w => .orV (fieldX w) (fieldY w)) 0x8#4 0x1#4 _ _ _ _).trans (by simp)
  · show Instr.orV (fieldX (nib _ _ _ _)) (fieldY (nib _ _ _ _)) = _
    simp

theorem andV (x : Reg) (y : Reg) : Statement (.andV x y) := by
  refine of_row ⟨11, by decide⟩ ?_
  rw [encode, wordXYN_nib]
  constructor
  · exact (selects_F00F "AND_Vx__Vy" (fun w => .andV (fieldX w) (fieldY w)) 0x8#4 0x2#4 _ _ _ _).trans (by simp)
  · show Instr.andV (fieldX (nib _ _ _ _)) (fieldY (nib _ _ _ _)) = _
    simp

theorem xorV (x : Reg) (y : Reg) : Statement (.xorV x y) := by
  refine of_row ⟨12, by decide⟩ ?_
  rw [encode, wordXYN_nib]
  constructor
  · exact (selects_F00F "XOR_Vx__Vy" (fun w => .xorV (fieldX w) (fieldY w)) 0x8#4 0x3#4 _ _ _ _).trans (by simp)
  · show Instr.xorV (fieldX (nib _ _ _ _)) (fieldY (nib _ _ _ _)) = _
    simp

theorem addV (x : Reg) (y : Reg) : Statement (.addV x y) := by
  refine of_row ⟨13, by decide⟩ ?_
  rw [encode, wordXYN_nib]
  constructor
  · exact (selects_F00F "ADD_Vx__Vy" (fun w => .addV (fieldX w) (fieldY w)) 0x8#4 0x4#4 _ _ _ _).trans (by simp)
  · show Instr.addV (fieldX (nib _ _ _ _)) (fieldY (nib _ _ _ _)) = _
    simp

theorem subV (x : Reg) (y : Reg) : Statement (.subV x y) := by
  refine of_row ⟨14, by decide⟩ ?_
  rw [encode, wordXYN_nib]
  constructor
  · exact (selects_F00F "SUB_Vx__Vy" (fun w => .subV (fieldX w) (fieldY w)) 0x8#4 0x5#4 _ _ _ _).trans (by simp)
  · show Instr.subV (fieldX (nib _ _ _ _)) (fieldY (nib _ _ _ _)) = _
    simp

theorem shrV (x : Reg) (y : Reg) : Statement (.shrV x y) := by
  refine of_row ⟨15, by decide⟩ ?_
  rw [encode, wordXYN_nib]
  constructor
  · exact (selects_F00F "SHR_Vx__Vy" (fun w => .shrV (fieldX w) (fieldY w)) 0x8#4 0x6#4 _ _ _ _).trans (by simp)
  · show Instr.shrV (fieldX (nib _ _ _ _)) (fieldY (nib _ _ _ _)) = _
    simp

theorem subnV (x : Reg) (y : Reg) : Statement (.subnV x y) := by
  refine of_row ⟨16, by decide⟩ ?_
  rw [encode, wordXYN_nib]
  constructor
  · exact (selects_F00F "SUBN_Vx__Vy" (fun w => .subnV (fieldX w) (fieldY w)) 0x8#4 0x7#4 _ _ _ _).trans (by simp)
  · show Instr.subnV (fieldX (nib _ _ _ _)) (fieldY (nib _ _ _ _)) = _
    simp

theorem shlV (x : Reg) (y : Reg) : Statement (.shlV x y) := by
  refine of_row ⟨17, by decide⟩ ?_
  rw [encode, wordXYN_nib]
  constructor
  · exact (selects_F00F "SHL_Vx__Vy" (fun w => .shlV (fieldX w) (fieldY w)) 0x8#4 0xE#4 _ _ _ _).trans (by simp)
  · show Instr.shlV (fieldX (nib _ _ _ _)) (fieldY (nib _ _ _ _)) = _
    simp

theorem sneV (x : Reg) (y : Reg) : Statement (.sneV x y) := by
  refine of_row ⟨18, by decide⟩ ?_
  rw [encode, wordXYN_nib]
  constructor
  · exact (selects_F00F "SNE_Vx__Vy" (fun w => .sneV (fieldX w) (fieldY w)) 0x9#4 0x0#4 _ _ _ _).trans (by simp)
  · show Instr.sneV (fieldX (nib _ _ _ _)) (fieldY (nib _ _ _ _)) = _
    simp

theorem ldI (addr : BitVec 12) : Statement (.ldI addr) := by
  refine of_row ⟨19, by decide⟩ ?_
  rw [encode, wordAddr_nib]
  constructor
  · exact (selects_F000 "LD_I__addr" (fun w => .ldI (fieldAddr w)) 0xA#4 _ _ _ _).trans (by simp)
  · show Instr.ldI (fieldAddr (nib _ _ _ _)) = _
    simp [addr_nibbles]

theorem jpV0 (addr : BitVec 12) : Statement (.jpV0 addr) := by
  refine of_row ⟨20, by decide⟩ ?_
  rw [encode, wordAddr_nib]
  constructor
  · exact (selects_F000 "JP_V0__addr" (fun w => .jpV0 (fieldAddr w)) 0xB#4 _ _ _ _).trans (by simp)
  · show Instr.jpV0 (fieldAddr (nib _ _ _ _)) = _
    simp [addr_nibbles]

theorem rnd (x : Reg) (k : Byte) : Statement (.rnd x k) := by
  refine of_row ⟨21, by decide⟩ ?_
  rw [encode, wordXK_nib]
  constructor
  · exact (selects_F000 "RND_Vx__k" (fun w => .rnd (fieldX w) (fieldK w)) 0xC#4 _ _ _ _).trans (by simp)
  · show Instr.rnd (fieldX (nib _ _ _ _)) (fieldK (nib _ _ _ _)) = _
    simp [byte_nibbles]

theorem drw (x : Reg) (y : Reg) (n : Fin 16) : Statement (.drw x y n) := by
  refine of_row ⟨22, by decide⟩ ?_
  rw [encode, wordXYN_nib]
  constructor
  · exact (selects_F000 "DRW_Vx__Vy__n" (fun w => .drw (fieldX w) (fieldY w) (fieldN w)) 0xD#4 _ _ _ _).trans (by simp)
  · show Instr.drw (fieldX (nib _ _ _ _)) (fieldY (nib _ _ _ _)) (fieldN (nib _ _ _ _)) = _
    simp

theorem skp (x : Reg) : Statement (.skp x) := by
  refine of_row ⟨23, by decide⟩ ?_
  rw [encode, wordXK_nib]
  constructor
  · exact (selects_F0FF "SKP_Vx" (fun w => .skp (fieldX w)) 0xE#4 0x9#4 0xE#4 _ _ _ _).trans (by simp)
  · show Instr.skp (fieldX (nib _ _ _ _)) = _
    simp

theorem sknp (x : Reg) : Statement (.sknp x) := by
  refine of_row ⟨24, by decide⟩ ?_
  rw [encode, wordXK_nib]
  constructor
  · exact (selects_F0FF "SKNP_Vx" (fun w => .sknp (fieldX w)) 0xE#4 0xA#4 0x1#4 _ _ _ _).trans (by simp)
  · show Instr.sknp (fieldX (nib _ _ _ _)) = _
    simp

theorem ldVDt (x : Reg) : Statement (.ldVDt x) := by
  refine of_row ⟨25, by decide⟩ ?_
  rw [encode, wordXK_nib]
  constructor
  · exact (selects_F0FF "LD_Vx__DT" (fun w => .ldVDt (fieldX w)) 0xF#4 0x0#4 0x7#4 _ _ _ _).trans (by simp)
  · show Instr.ldVDt (fieldX (nib _ _ _ _)) = _
    simp

theorem ldVKey (x : Reg) : Statement (.ldVKey x) := by
  refine of_row ⟨26, by decide⟩ ?_
  rw [encode, wordXK_nib]
  constructor
  · exact (selects_F0FF "LD_Vx__K" (fun w => .ldVKey (fieldX w)) 0xF#4 0x0#4 0xA#4 _ _ _ _).trans (by simp)
  · show Instr.ldVKey (fieldX (nib _ _ _ _)) = _
    simp

theorem ldDtV (x : Reg) : Statement (.ldDtV x) := by
  refine of_row ⟨27, by decide⟩ ?_
  rw [encode, wordXK_nib]
  constructor
  · exact (selects_F0FF "LD_DT__Vx" (fun w => .ldDtV (fieldX w)) 0xF#4 0x1#4 0x5#4 _ _ _ _).trans (by simp)
  · show Instr.ldDtV (fieldX (nib _ _ _ _)) = _
    simp

theorem ldStV (x : Reg) : Statement (.ldStV x) := by
  refine of_row ⟨28, by decide⟩ ?_
  rw [encode, wordXK_nib]
  constructor
  · exact (selects_F0FF "LD_ST__Vx" (fun w => .ldStV (fieldX w)) 0xF#4 0x1#4 0x8#4 _ _ _ _).trans (by simp)
  · show Instr.ldStV (fieldX (nib _ _ _ _)) = _
    simp

theorem addI (x : Reg) : Statement (.addI x) := by
  refine of_row ⟨29, by decide⟩ ?_
  rw [encode, wordXK_nib]
  constructor
  · exact (selects_F0FF "ADD_I__Vx" (fun w => .addI (fieldX w)) 0xF#4 0x1#4 0xE#4 _ _ _ _).trans (by simp)
  · show Instr.addI (fieldX (nib _ _ _ _)) = _
    simp

theorem ldF (x : Reg) : Statement (.ldF x) := by
  refine of_row ⟨30, by decide⟩ ?_
  rw [encode, wordXK_nib]
  constructor
  · exact (selects_F0FF "LD_F__Vx" (fun w => .ldF (fieldX w)) 0xF#4 0x2#4 0x9#4 _ _ _ _).trans (by simp)
  · show Instr.ldF (fieldX (nib _ _ _ _)) = _
    simp

theorem ldB (x : Reg) : Statement (.ldB x) := by
  refine of_row ⟨31, by decide⟩ ?_
  rw [encode, wordXK_nib]
  constructor
  · exact (selects_F0FF "LD_B__Vx" (fun w => .ldB (fieldX w)) 0xF#4 0x3#4 0x3#4 _ _ _ _).trans (by simp)
  · show Instr.ldB (fieldX (nib _ _ _ _)) = _
    simp

theorem store (x : Reg) : Statement (.store x) := by
  refine of_row ⟨32, by decide⟩ ?_
  rw [encode, wordXK_nib]
  constructor
  · exact (selects_F0FF "LD__I___Vx" (fun w => .store (fieldX w)) 0xF#4 0x5#4 0x5#4 _ _ _ _).trans (by simp)
  · show Instr.store (fieldX (nib _ _ _ _)) = _
    simp

theorem load (x : Reg) : Statement (.load x) := by
  refine of_row ⟨33, by decide⟩ ?_
  rw [encode, wordXK_nib]
  constructor
  · exact (selects_F0FF "LD_Vx___I" (fun w => .load (fieldX w)) 0xF#4 0x6#4 0x5#4 _ _ _ _).trans (by simp)
  · show Instr.load (fieldX (nib _ _ _ _)) = _
    simp

end Sys2Proof.Laws.MatchesRow
end

