-- ==== Sys2Proof/Tests/Slice0.lean ====
section
/-! SUPPORT. The model's own tests. Expected results come from spec/95_test_vectors.md (the vector's id stands in the
test's comment) or, for encodings, from the bit patterns of spec/30_encoding.md R59. -/

namespace Sys2Proof.Tests

open Sys2Proof Sys2Proof.Machine

-- One test after the other: each evaluates in the kernel.
set_option Elab.async false

/-! ### Helpers -/

/-- The state of an answer; the reset state where there is none. -/
def after : Result → State
  | .next t => t
  | .fault _ => State.reset
  | .refused _ => State.reset

/-- The refusal of an answer. -/
def refusalOf : Result → Option Refusal
  | .next _ => none
  | .fault _ => none
  | .refused r => some r

/-- Whether an answer is a next state. -/
def answers : Result → Bool
  | .next _ => true
  | .fault _ => false
  | .refused _ => false

theorem next_after {r : Result} (h : answers r = true) : r = .next (after r) := by
  cases r with
  | next t => rfl
  | fault f => cases f
  | refused f => cases h

/-- The start state of a vector: construction values, PC at 0x300, the random source known to answer 0xAB. -/
def start : State := State.constructed [] 0x0300#16 [0xAB#8]

/-- The state after the step that fetches the word `w` at PC. -/
def runs (w : Nat) (s : State) : State := after (step (s.withFetchWord 16 w))

/-- Set the registers of a list. -/
def setV (s : State) (l : List (Reg × Byte)) : State := l.foldl (fun s p => s.writeV p.1 p.2) s

/-- The values of the registers of a list. -/
def getV (s : State) (l : List Reg) : List Byte := l.map s.readV

/-- The bytes at the addresses of a list. -/
def getM (s : State) (l : List Nat) : List Byte := l.map s.readByte

/-- The set pixels among the first eight rows and rows 28 to 31, as column and row. -/
def pixels (s : State) : List (Nat × Nat) :=
  ([0, 1, 2, 3, 4, 5, 6, 7, 28, 29, 30, 31] : List Nat).flatMap fun r =>
    ((List.range 64).filter fun c => s.pixel c r).map fun c => (c, r)

/-- A call stack of the given depth. -/
def deep (n : Nat) : State := start.setStack (List.replicate n 0x0202#16)

/-! ### Well-formedness: each check refuses an ill-formed term -/

/-- S10: an image of 4095 bytes. -/
theorem test_wellFormed_image_too_short : wellFormedImage (List.replicate 4095 0x00#8) = false := by decide +kernel

/-- An image of 4097 bytes. -/
theorem test_wellFormed_image_too_long : wellFormedImage (List.replicate 4097 0x00#8) = false := by decide +kernel

theorem test_wellFormed_image_exact : wellFormedImage (List.replicate 4096 0x00#8) = true := by decide +kernel

/-- S7: a load address below 0x200. -/
theorem test_wellFormed_rom_too_low : wellFormedRom [0x00#8] 0x01FF#16 = false := by decide +kernel

/-- S9: a ROM that ends past 0xFFF; S8: one that ends at 0xFFF. -/
theorem test_wellFormed_rom_size :
    wellFormedRom (List.replicate 513 0x00#8) 0x0E00#16 = false ∧
    wellFormedRom (List.replicate 512 0x00#8) 0x0E00#16 = true := by decide +kernel

/-- R68: a negative elapsed time. -/
theorem test_wellFormed_elapsed_negative :
    wellFormedElapsed (-1) = false ∧ wellFormedElapsed 0 = true := by decide +kernel

/-- An operand cannot be out of its field's range: sixteen registers and no more. -/
theorem test_wellFormed_operands : ∀ (x y : Reg) (k : Byte) (n : Fin 16),
    x.val < 16 ∧ y.val < 16 ∧ n.val < 16 ∧ k.toNat < 256 := fun x y k n => ⟨x.isLt, y.isLt, n.isLt, k.isLt⟩

/-! ### Decoding: words written out bit by bit from the patterns of R59 -/

theorem test_decode_system :
    decodeWord 0b0000000011100000#16 = some .cls ∧ decodeWord 0b0000000011101110#16 = some .ret ∧
    decodeWord 0b0001010001010110#16 = some (.jp 0x456#12) ∧
    decodeWord 0b0010010000000000#16 = some (.call 0x400#12) := by decide +kernel

theorem test_decode_immediate :
    decodeWord 0b0011000100000000#16 = some (.seK 1 0x00#8) ∧
    decodeWord 0b0100001000000011#16 = some (.sneK 2 0x03#8) ∧
    decodeWord 0b0101001101000000#16 = some (.seV 3 4) ∧
    decodeWord 0b0110101011000110#16 = some (.ldK 10 0xC6#8) ∧
    decodeWord 0b0111000000000001#16 = some (.addK 0 0x01#8) := by decide +kernel

theorem test_decode_register_logic :
    decodeWord 0b1000001011110000#16 = some (.ldV 2 15) ∧ decodeWord 0b1000000100100001#16 = some (.orV 1 2) ∧
    decodeWord 0b1000000100100010#16 = some (.andV 1 2) ∧ decodeWord 0b1000000100100011#16 = some (.xorV 1 2) := by
  decide +kernel

theorem test_decode_register_arithmetic :
    decodeWord 0b1000000100100100#16 = some (.addV 1 2) ∧ decodeWord 0b1000000100100101#16 = some (.subV 1 2) ∧
    decodeWord 0b1000000100100110#16 = some (.shrV 1 2) ∧ decodeWord 0b1000000100100111#16 = some (.subnV 1 2) ∧
    decodeWord 0b1000000100101110#16 = some (.shlV 1 2) ∧ decodeWord 0b1001001101000000#16 = some (.sneV 3 4) := by
  decide +kernel

theorem test_decode_address :
    decodeWord 0b1010001100000000#16 = some (.ldI 0x300#12) ∧
    decodeWord 0b1011111111111111#16 = some (.jpV0 0xFFF#12) ∧
    decodeWord 0b1100001100001111#16 = some (.rnd 3 0x0F#8) ∧
    decodeWord 0b1101000000011111#16 = some (.drw 0 1 15) := by decide +kernel

theorem test_decode_keys_and_timers :
    decodeWord 0b1110010010011110#16 = some (.skp 4) ∧ decodeWord 0b1110010010100001#16 = some (.sknp 4) ∧
    decodeWord 0b1111000100000111#16 = some (.ldVDt 1) ∧ decodeWord 0b1111001100001010#16 = some (.ldVKey 3) ∧
    decodeWord 0b1111000000010101#16 = some (.ldDtV 0) ∧ decodeWord 0b1111001000011000#16 = some (.ldStV 2) := by
  decide +kernel

theorem test_decode_index_memory :
    decodeWord 0b1111010100011110#16 = some (.addI 5) ∧ decodeWord 0b1111011100101001#16 = some (.ldF 7) ∧
    decodeWord 0b1111101000110011#16 = some (.ldB 10) ∧ decodeWord 0b1111000101010101#16 = some (.store 1) ∧
    decodeWord 0b1111001001100101#16 = some (.load 2) := by decide +kernel

/-- V13, A28, S3, S4: words that match no row. -/
theorem test_decode_refuses :
    decodeWord 0x5341#16 = none ∧ decodeWord 0x8008#16 = none ∧ decodeWord 0x0123#16 = none ∧
    decodeWord 0xFFFF#16 = none ∧ decodeWord 0x00E1#16 = none ∧ decodeWord 0xE19F#16 = none := by decide +kernel

theorem test_decode_bytes_refuses :
    decode [0x12#8] = .error .truncated ∧ decode [0x01#8, 0x23#8] = .error (.unrecognized 0x0123#16) :=
  ⟨rfl, rfl⟩

theorem test_opcode_table_has_34_rows : opcodeTable.length = 34 := by decide

/-! ### Control flow, vectors of section 2.1 -/

/-- V1, V2. -/
theorem test_jp : (runs 0x1456 start).pc = 0x0456#16 ∧ (runs 0x1300 start).pc = 0x0300#16 := by decide +kernel

/-- V3. -/
theorem test_call : (runs 0x2400 start).stack = [0x0302#16] ∧ (runs 0x2400 start).pc = 0x0400#16 := by decide +kernel

/-- V4. -/
theorem test_call_overflow :
    (runs 0x2400 (deep 32)).halt = some .stackOverflow ∧ (runs 0x2400 (deep 32)).stack.length = 32 ∧
    (runs 0x2400 (deep 32)).pc = 0x0302#16 ∧ (runs 0x2400 (deep 32)).continues = false := by decide +kernel

/-- V5. -/
theorem test_ret :
    (runs 0x00EE (start.setStack [0x0206#16])).pc = 0x0206#16 ∧ (runs 0x00EE (start.setStack [0x0206#16])).stack = [] := by
  decide +kernel

/-- V6. -/
theorem test_ret_underflow :
    (runs 0x00EE start).halt = some .stackUnderflow ∧ (runs 0x00EE start).pc = 0x0302#16 := by decide +kernel

/-- V7, V8. -/
theorem test_seK :
    (runs 0x3100 (start.writeV 1 0x00#8)).pc = 0x0304#16 ∧ (runs 0x3100 (start.writeV 1 0x01#8)).pc = 0x0302#16 := by
  decide +kernel

/-- V9, V10. -/
theorem test_sneK :
    (runs 0x4203 (start.writeV 2 0x05#8)).pc = 0x0304#16 ∧ (runs 0x4205 (start.writeV 2 0x05#8)).pc = 0x0302#16 := by
  decide +kernel

/-- V11, V12. -/
theorem test_seV :
    (runs 0x5340 (setV start [(3, 0x10#8), (4, 0x10#8)])).pc = 0x0304#16 ∧
    (runs 0x5330 (start.writeV 3 0x10#8)).pc = 0x0304#16 := by decide +kernel

/-- V14, V15. -/
theorem test_sneV :
    (runs 0x9340 (setV start [(3, 0x10#8), (4, 0x11#8)])).pc = 0x0304#16 ∧
    (runs 0x9340 (setV start [(3, 0x10#8), (4, 0x10#8)])).pc = 0x0302#16 := by decide +kernel

/-- V16, V17: the target is not reduced, and the next step halts there. -/
theorem test_jpV0 :
    (runs 0xB300 (start.writeV 0 0x04#8)).pc = 0x0304#16 ∧ (runs 0xBFFF start).pc = 0x10FE#16 ∧
    (after (step (runs 0xBFFF start))).halt = some .memoryOutOfRange ∧
    (after (step (runs 0xBFFF start))).pc = 0x10FE#16 := by decide +kernel

/-! ### Arithmetic and logic, vectors of section 2.2 -/

/-- A1. -/
theorem test_ldK : (runs 0x6AC6 start).readV 10 = 0xC6#8 := by decide +kernel

/-- A2, A3. -/
theorem test_addK :
    getV (runs 0x7001 (setV start [(0, 0xFF#8), (15, 0x55#8)])) [0, 15] = [0x00#8, 0x55#8] ∧
    (runs 0x7F01 start).readV 15 = 0x00#8 := by decide +kernel

/-- A4. -/
theorem test_ldV : (runs 0x82F0 (start.writeV 15 0x00#8)).readV 2 = 0x00#8 := by decide +kernel

/-- A5. -/
theorem test_orV :
    getV (runs 0x8121 (setV start [(1, 0xF0#8), (2, 0x0F#8), (15, 0x55#8)])) [1, 15] = [0xFF#8, 0x55#8] := by
  decide +kernel

/-- A6. -/
theorem test_andV :
    getV (runs 0x8122 (setV start [(1, 0xF0#8), (2, 0x3C#8)])) [1, 15] = [0x30#8, 0xFF#8] := by decide +kernel

/-- A7, A8. -/
theorem test_xorV :
    getV (runs 0x8123 (setV start [(1, 0xF0#8), (2, 0x3C#8)])) [1, 15] = [0xCC#8, 0xFF#8] ∧
    (runs 0x8113 (start.writeV 1 0x5A#8)).readV 1 = 0x00#8 := by decide +kernel

/-- A9, A10. -/
theorem test_addV :
    getV (runs 0x8014 (setV start [(0, 0xFF#8), (1, 0x01#8)])) [0, 15] = [0x00#8, 0x01#8] ∧
    getV (runs 0x8014 (setV start [(0, 0x80#8), (1, 0x7F#8)])) [0, 15] = [0xFF#8, 0x00#8] := by decide +kernel

/-- A12, A13, A14: VF is read as an operand before it is written, and the flag is written last. -/
theorem test_addV_flag_register :
    (runs 0x8F04 (setV start [(15, 0x10#8), (0, 0xF0#8)])).readV 15 = 0x01#8 ∧
    (runs 0x8F04 (setV start [(15, 0x10#8), (0, 0x01#8)])).readV 15 = 0x00#8 ∧
    getV (runs 0x80F4 (setV start [(0, 0x01#8), (15, 0xFF#8)])) [0, 15] = [0x00#8, 0x01#8] := by decide +kernel

/-- A15, A16, A17. -/
theorem test_subV :
    getV (runs 0x8125 (setV start [(1, 0x05#8), (2, 0x03#8)])) [1, 15] = [0x02#8, 0x01#8] ∧
    getV (runs 0x8125 (setV start [(1, 0x03#8), (2, 0x05#8)])) [1, 15] = [0xFE#8, 0x00#8] ∧
    getV (runs 0x8125 (setV start [(1, 0x07#8), (2, 0x07#8)])) [1, 15] = [0x00#8, 0x01#8] := by decide +kernel

/-- A18. -/
theorem test_subV_flag_register :
    (runs 0x8F15 (setV start [(15, 0x03#8), (1, 0x05#8)])).readV 15 = 0x00#8 := by decide +kernel

/-- A19, A20. -/
theorem test_subnV :
    getV (runs 0x8127 (setV start [(1, 0x03#8), (2, 0x05#8)])) [1, 15] = [0x02#8, 0x01#8] ∧
    getV (runs 0x8127 (setV start [(1, 0x05#8), (2, 0x03#8)])) [1, 15] = [0xFE#8, 0x00#8] := by decide +kernel

/-- A21, A22. -/
theorem test_shrV :
    getV (runs 0x8126 (setV start [(1, 0xAA#8), (2, 0x05#8)])) [1, 15, 2] = [0x02#8, 0x01#8, 0x05#8] ∧
    getV (runs 0x8126 (start.writeV 2 0x80#8)) [1, 15] = [0x40#8, 0x00#8] := by decide +kernel

/-- A23, A24. -/
theorem test_shrV_shared_register :
    getV (runs 0x8116 (start.writeV 1 0x01#8)) [1, 15] = [0x00#8, 0x01#8] ∧
    (runs 0x8F06 (start.writeV 0 0x03#8)).readV 15 = 0x01#8 := by decide +kernel

/-- A25, A26. -/
theorem test_shlV :
    getV (runs 0x812E (start.writeV 2 0x81#8)) [1, 15] = [0x02#8, 0x01#8] ∧
    getV (runs 0x812E (start.writeV 2 0x40#8)) [1, 15] = [0x80#8, 0x00#8] := by decide +kernel

/-- A27. -/
theorem test_shlV_flag_register : (runs 0x8FFE start).readV 15 = 0x01#8 := by decide +kernel

/-- A29, and A30: the draw is consumed whatever the mask. -/
theorem test_rnd :
    (runs 0xC30F start).readV 3 = 0x0B#8 ∧ (runs 0xC300 start).readV 3 = 0x00#8 ∧
    (runs 0xC300 start).randBytes = [] ∧ (runs 0xC300 start).draws = 1 := by decide +kernel

/-! ### Index register and memory, vectors of section 2.3 -/

/-- M1. -/
theorem test_ldI : (runs 0xA300 start).i = 0x0300#16 := by decide +kernel

/-- M2, M3. -/
theorem test_addI :
    (runs 0xF51E ((start.writeV 5 0x10#8).setI 0x0300#16)).i = 0x0310#16 ∧
    (runs 0xF01E ((start.writeV 0 0x01#8).setI 0x0FFF#16)).i = 0x1000#16 := by decide +kernel

/-- M4. -/
theorem test_addI_overflow :
    (runs 0xF01E ((start.writeV 0 0x01#8).setI 0xFFFF#16)).halt = some .indexOverflow ∧
    (runs 0xF01E ((start.writeV 0 0x01#8).setI 0xFFFF#16)).i = 0xFFFF#16 := by decide +kernel

/-- M5, M6. -/
theorem test_ldF :
    (runs 0xF729 (start.writeV 7 0x1A#8)).i = 0x0032#16 ∧ (runs 0xF029 (start.writeV 0 0x0F#8)).i = 0x004B#16 := by
  decide +kernel

/-- W9, M9. -/
theorem test_ldB :
    getM (runs 0xF033 ((start.writeV 0 0xC6#8).setI 0x0400#16)) [0x400, 0x401, 0x402] = [0x01#8, 0x09#8, 0x08#8] ∧
    getM (runs 0xF033 (start.setI 0x0FFD#16)) [0xFFD, 0xFFE, 0xFFF] = [0x02#8, 0x05#8, 0x05#8] := by decide +kernel

/-- M10. -/
theorem test_ldB_out_of_range :
    (runs 0xF033 (start.setI 0x0FFE#16)).halt = some .memoryOutOfRange ∧
    getM (runs 0xF033 (start.setI 0x0FFE#16)) [0xFFE, 0xFFF] = getM start [0xFFE, 0xFFF] := by decide +kernel

/-- M11, M12. -/
theorem test_store :
    getM (runs 0xF155 ((setV start [(0, 0x01#8), (1, 0x02#8)]).setI 0x0400#16)) [0x400, 0x401, 0x402] =
      [0x01#8, 0x02#8, 0xFF#8] ∧
    (runs 0xFF55 (start.setI 0x0FF0#16)).i = 0x1000#16 := by decide +kernel

/-- M13. -/
theorem test_store_out_of_range :
    (runs 0xFF55 ((start.writeV 0 0x12#8).setI 0x0FF1#16)).halt = some .memoryOutOfRange ∧
    (runs 0xFF55 ((start.writeV 0 0x12#8).setI 0x0FF1#16)).i = 0x0FF1#16 ∧
    (runs 0xFF55 ((start.writeV 0 0x12#8).setI 0x0FF1#16)).readByte 0xFF1 = 0xFF#8 := by decide +kernel

/-- M14. -/
theorem test_load :
    getV (runs 0xF265 ((((start.writeByte 0x400 0x01#8).writeByte 0x401 0x09#8).writeByte 0x402 0x08#8).setI 0x0400#16))
      [0, 1, 2, 3] = [0x01#8, 0x09#8, 0x08#8, 0xFF#8] ∧
    (runs 0xF265 (start.setI 0x0400#16)).i = 0x0403#16 := by decide +kernel

/-- M16. -/
theorem test_load_out_of_range : (runs 0xF065 (start.setI 0x1000#16)).halt = some .memoryOutOfRange := by
  decide +kernel

/-! ### Display, vectors of section 2.4 -/

/-- One sprite byte at 0x400, with V0 and V1 the coordinates. -/
def sprite (b vx vy : Byte) : State := ((setV start [(0, vx), (1, vy)]).writeByte 0x400 b).setI 0x0400#16

/-- D1. -/
theorem test_cls :
    pixels (runs 0x00E0 (setV (start.setFb (start.fb.flip 3 4)) [(15, 0x55#8)])) = [] ∧
    (runs 0x00E0 (setV (start.setFb (start.fb.flip 3 4)) [(15, 0x55#8)])).readV 15 = 0x55#8 := by decide +kernel

/-- D2: columns past 63 are clipped. D3, D4: nothing on the screen. -/
theorem test_drw_clips :
    pixels (runs 0xD011 (sprite 0xFF#8 60#8 0#8)) = [(60, 0), (61, 0), (62, 0), (63, 0)] ∧
    pixels (runs 0xD011 (sprite 0xFF#8 64#8 0#8)) = [] ∧ pixels (runs 0xD011 (sprite 0xFF#8 0#8 32#8)) = [] ∧
    (runs 0xD011 (sprite 0xFF#8 60#8 0#8)).readV 15 = 0x00#8 := by decide +kernel

/-- D5: collision. D6: the coordinates may be VF. D8: the range check comes before any pixel. -/
theorem test_drw_collides :
    pixels (runs 0xD011 ((sprite 0xC0#8 0#8 0#8).setFb (start.fb.flip 1 0))) = [(0, 0)] ∧
    (runs 0xD011 ((sprite 0xC0#8 0#8 0#8).setFb (start.fb.flip 1 0))).readV 15 = 0x01#8 ∧
    pixels (runs 0xDFF1 ((sprite 0x80#8 0#8 0#8).writeV 15 0x05#8)) = [(5, 5)] ∧
    (runs 0xD01F ((sprite 0xFF#8 0#8 0#8).setI 0x0FF2#16)).halt = some .memoryOutOfRange := by decide +kernel

/-- D10. -/
theorem test_query_outside : start.getDisplaySpot 64 0 = false ∧ start.getDisplaySpot (-1) 0 = false := by
  decide +kernel

/-! ### Timers and keys, vectors of section 2.5 -/

/-- T6: the tick comes before the fetch. -/
theorem test_ldVDt : (runs 0xF107 ((start.setDt 5#8).setHost [.step (1 / 60)])).readV 1 = 0x04#8 := by decide +kernel

/-- P4, rows 1 and 2. -/
theorem test_ldDtV : (runs 0xF015 (start.writeV 0 0x05#8)).dt = 0x05#8 := by decide +kernel

/-- T7. -/
theorem test_ldStV :
    (runs 0xF218 (start.writeV 2 0x1E#8)).st = 30#8 ∧ (runs 0xF218 (start.writeV 2 0x1E#8)).isToneOn = true := by
  decide +kernel

/-- K1, K2. -/
theorem test_skp :
    (runs 0xE49E ((start.writeV 4 0x05#8).setKey 5 true)).pc = 0x0304#16 ∧
    (runs 0xE49E (start.writeV 4 0x05#8)).pc = 0x0302#16 := by decide +kernel

/-- K4. -/
theorem test_skp_out_of_range : (runs 0xE49E (start.writeV 4 0x10#8)).halt = some .keyIndexOutOfRange := by
  decide +kernel

/-- K3. -/
theorem test_sknp : (runs 0xE4A1 (start.writeV 4 0x05#8)).pc = 0x0304#16 := by decide +kernel

/-- K5: V0 is 0xFF after construction. -/
theorem test_sknp_out_of_range : (runs 0xE0A1 start).halt = some .keyIndexOutOfRange := by decide +kernel

/-- The state of K6 after its step: waiting, with the given key down. -/
def waitingFor (key : Key) : State := (runs 0xF50A start).setKey key true

/-- K6: the wait is armed, a press changes nothing, the release resolves. -/
theorem test_ldVKey :
    (runs 0xF50A start).waiting = true ∧ (runs 0xF50A start).waitReg = 5 ∧ (runs 0xF50A start).pc = 0x0302#16 ∧
    (setKeydown 9 true (waitingFor 9)).waiting = true ∧ (setKeydown 9 false (waitingFor 9)).waiting = false ∧
    (setKeydown 9 false (waitingFor 9)).readV 5 = 0x09#8 := by decide +kernel

/-- K7, K8: a release of a key not recorded as down, and indexes out of range, change no wait. -/
theorem test_set_keydown_ignores :
    (setKeydown 3 false (waitingFor 9)).waiting = true ∧ setKeydown 16 true (waitingFor 9) = waitingFor 9 ∧
    setKeydown (-1) false (waitingFor 9) = waitingFor 9 := by decide +kernel

/-- T1, T2: 30 ticks, and saturation. -/
theorem test_ticks :
    Clock.elapse ⟨40#8, 0#8, 0⟩ (1 / 2) = ⟨10#8, 0#8, 0⟩ ∧ Clock.elapse ⟨3#8, 0#8, 0⟩ 1 = ⟨0#8, 0#8, 0⟩ := by
  decide +kernel

/-- T3: time accumulates over calls. -/
theorem test_ticks_accumulate :
    Clock.elapse ⟨5#8, 0#8, 0⟩ (1 / 120) = ⟨5#8, 0#8, 1 / 120⟩ ∧
    Clock.elapse ⟨5#8, 0#8, 1 / 120⟩ (1 / 120) = ⟨4#8, 0#8, 0⟩ := by decide +kernel

/-! ### Step cycle and construction, vectors of section 2.6 -/

/-- S1, S3: a fetch out of range leaves PC, an unrecognized word leaves PC advanced. -/
theorem test_fetch_halts :
    (after (step (start.setPc 0x0FFF#16))).halt = some .memoryOutOfRange ∧
    (after (step (start.setPc 0x0FFF#16))).pc = 0x0FFF#16 ∧
    (runs 0x0123 start).halt = some .unrecognizedInstruction ∧ (runs 0x0123 start).pc = 0x0302#16 := by decide +kernel

/-- S5. -/
theorem test_step_after_halt : refusalOf (step (start.setHalt .indexOverflow)) = some .stepAfterHalt := by
  decide +kernel

/-- S11: the reset state is the ROM core with an empty ROM, whose first step halts on the filler. -/
theorem test_reset_step :
    (after (step State.reset)).halt = some .unrecognizedInstruction ∧ (after (step State.reset)).pc = 0x0202#16 := by
  decide +kernel

/-- S12. -/
theorem test_reset_memory :
    getM State.reset [0, 1, 2, 3, 4, 0x50, 0x200, 0xFFF] =
      [0xF0#8, 0x90#8, 0x90#8, 0x90#8, 0xF0#8, 0xFF#8, 0xFF#8, 0xFF#8] := by decide +kernel

/-- The interface runs from reset. -/
theorem test_core_runs : answers (Sys2Proof.core.step Sys2Proof.core.reset) = true := by decide +kernel

/-! ### Witnesses: for each obligation with hypotheses, a state and operands that meet all of them, at the boundaries of
its clauses -/

theorem test_witness_ImageConstruction :
    (List.replicate 4095 0x00#8).length ≠ 4096 ∧ (List.replicate 4096 0x00#8).length = 4096 ∧
    0xFFF ≤ (0x0FFF#16 : Word).toNat ∧ (0 : Rat) ≤ 0 := by decide +kernel

theorem test_witness_RomConstruction :
    0x200 ≤ (0x0200#16 : Word).toNat ∧ (0x0200#16 : Word).toNat + (List.replicate 3584 0x12#8).length ≤ 4096 ∧
    ¬ 0x200 ≤ (0x01FF#16 : Word).toNat ∧
    ¬ (0x0200#16 : Word).toNat + (List.replicate 3585 0x12#8).length ≤ 4096 ∧
    79 < Config.font.length ∧ 80 < (0x0201#16 : Word).toNat ∧ 3583 < (List.replicate 3584 0x12#8).length ∧
    (0x0200#16 : Word).toNat + (List.replicate 3583 0x12#8).length ≤ 4095 := by decide +kernel

/-- S7, S9, S10 on one side, S8 on the other. -/
theorem test_witness_ConstructionFails :
    (constructImage (List.replicate 4095 0x00#8) 0x0300#16 [] false).isNone = true ∧
    (constructRom [] 0x01FF#16 [] false).isNone = true ∧
    (constructRom (List.replicate 513 0x00#8) 0x0E00#16 [] false).isNone = true ∧
    (constructRom (List.replicate 512 0x00#8) 0x0E00#16 [] true).isSome = true := by decide +kernel

theorem test_witness_EveryConstructedCore :
    (constructRom [0x12#8, 0x00#8] 0x0200#16 [0xAB#8] true).isSome = true ∧
    (constructImage (List.replicate 4096 0x00#8) 0x0300#16 [] false).isSome = true := by decide +kernel

/-- A memory with two cells is canonical, and reads as itself. -/
theorem test_witness_CanonicalMemories :
    Memory.wf [(0x300, 0x01#8), (0xFFF, 0x02#8)] ∧ ¬ Memory.wf [(0x300, 0xFF#8)] ∧
    ¬ Memory.wf [(0xFFF, 0x02#8), (0x300, 0x01#8)] ∧ ¬ Memory.wf [(0x1000, 0x02#8)] := by decide +kernel

theorem test_witness_Fetch :
    (start.setPc 0x0FFE#16).pc.toNat + 1 < 4096 ∧ 4096 ≤ (start.setPc 0x0FFF#16).pc.toNat + 1 := by decide +kernel

/-- The last two bytes of memory. -/
theorem test_witness_StoredBytes :
    1 ≤ (1 : Reg).val ∧ ((start.setI 0x0FFE#16).setPc 0x0FFE#16).i = ((start.setI 0x0FFE#16).setPc 0x0FFE#16).pc ∧
    ((start.setI 0x0FFE#16).setPc 0x0FFE#16).i.toNat + (1 : Reg).val ≤ 0xFFF := by decide +kernel

/-- A word that selects a row, a word that selects none, and a state that fetches the latter. -/
theorem test_witness_DecodeSelects :
    (opcodeTable.map (fun r => r.selects 0x8124#16)).count true = 1 ∧
    (opcodeTable.all fun r => 0x0123#16 &&& r.mask != r.pattern) = true ∧
    ((start.writeByte 0x300 0x01#8).writeByte 0x301 0x23#8).fetch = some 0x0123#16 := by decide +kernel

theorem test_witness_DecodeOfEncode : (Instr.drw 15 0 15).wellFormed = true ∧ Instr.cls.wellFormed = true := ⟨rfl, rfl⟩

theorem test_witness_EncodeOfDecode :
    decode [0xDF#8, 0x0F#8, 0x12#8] = .ok (.drw 15 0 15, [0x12#8]) ∧ encodeBytes (.drw 15 0 15) = [0xDF#8, 0x0F#8] :=
  ⟨rfl, rfl⟩

/-- Both sides of the list of R61, at the edges of its ranges. -/
theorem test_witness_UnrecognizedWords :
    ([0x0000#16, 0x0FFF#16, 0x5001#16, 0x8008#16, 0x8FFD#16, 0x800F#16, 0x9FFF#16, 0xE09F#16, 0xF000#16, 0xFFFF#16].all
      fun w => (decodeWord w).isNone) = true ∧
    ([0x00E0#16, 0x00EE#16, 0x5FF0#16, 0x8FF7#16, 0x8FFE#16, 0x9FF0#16, 0xEF9E#16, 0xEFA1#16, 0xFF65#16].all
      fun w => (decodeWord w).isSome) = true := by decide +kernel

/-- The state of vector T6: `LD V1, DT` at PC, and the host about to step by a tick. -/
def timed : State := (((start.setDt 5#8).setHost [.step (1 / 60)]).writeByte 0x300 0xF1#8).writeByte 0x301 0x07#8

theorem test_witness_StepRunsTheDecodedInstruction :
    timed.waiting = false ∧ timed.halted = false ∧ (0 : Rat) ≤ 1 / 60 ∧ nextHostOp timed = (.step (1 / 60), []) ∧
    timed.pc.toNat + 1 < 4096 ∧
    decode [timed.readByte timed.pc.toNat, timed.readByte (timed.pc.toNat + 1)] = .ok (.ldVDt 1, []) :=
  ⟨rfl, rfl, by decide +kernel, rfl, by decide +kernel, by decide +kernel⟩

theorem test_witness_StepPerformsTheNextHostOperation :
    timed.host = [.step (1 / 60)] ∧ start.host = [] ∧
    (start.setHost [.setKeydown 16 true, .step 0]).host = [.setKeydown 16 true, .step 0] := ⟨rfl, rfl, rfl⟩

theorem test_witness_StepIsRefused :
    (start.setHalt .indexOverflow).halted = true ∧ start.halted = false ∧ (-1 : Rat) < 0 ∧ (0 : Rat) ≤ 0 :=
  ⟨rfl, rfl, by decide +kernel, by decide +kernel⟩

theorem test_witness_ElapsedTimeRunsTheTickLoop :
    (timed.halted = false ∧ timed.waiting = false ∧ (0 : Rat) ≤ 1 / 60) ∧
    ((start.arm 3).halted = false ∧ (start.arm 3).waiting = true) ∧
    (Clock.mk 5#8 5#8 0).acc < 1 / 60 ∧ 1 / 60 ≤ (Clock.mk 5#8 5#8 (1 / 60)).acc :=
  ⟨⟨rfl, rfl, by decide +kernel⟩, ⟨rfl, rfl⟩, by decide +kernel, by decide +kernel⟩

theorem test_witness_ElapsedTimeHasItsClosedForm :
    0 ≤ start.acc + 1 / 60 ∧ 0 ≤ start.acc ∧ (0 : Rat) ≤ 1 / 120 ∧
    (start.elapse (1 / 120)).elapse (1 / 120) = start.elapse (1 / 60) := by decide +kernel

theorem test_witness_WaitingStep :
    (start.arm 5).waiting = true ∧ (start.arm 5).halted = false ∧ (0 : Rat) ≤ 0 := ⟨rfl, rfl, by decide +kernel⟩

/-- The two indexes outside 0 to 15 that are nearest, the two inside, and a qualifying and an unqualified release. -/
theorem test_witness_SetKeydown :
    (-1 : Int) < 0 ∧ (15 : Int) < 16 ∧ (0 : Int) = (0 : Key).val ∧ (15 : Int) = (15 : Key).val ∧
    ((waitingFor 15).waiting = true ∧ (waitingFor 15).keyDown 15 = true) ∧
    ((waitingFor 15).waiting = true ∧ (waitingFor 15).keyDown 0 = false) := by decide +kernel

theorem test_witness_WaitEnds :
    step ((waitingFor 9).setHost [.setKeydown 9 false]) =
      .next (after (step ((waitingFor 9).setHost [.setKeydown 9 false]))) ∧
    (waitingFor 9).waiting = true ∧
    (after (step ((waitingFor 9).setHost [.setKeydown 9 false]))).waiting = false :=
  ⟨next_after (by decide +kernel), by decide +kernel, by decide +kernel⟩

/-- Every skip has a state that meets its condition and one that does not, PC at its highest value included. -/
theorem test_witness_Skips :
    start.readV 1 = 0xFF#8 ∧ start.readV 1 ≠ 0x00#8 ∧ start.readV 1 = start.readV 2 ∧
    (start.writeV 1 0x00#8).readV 1 ≠ (start.writeV 1 0x00#8).readV 2 ∧
    (after (exec (.seK 1 0xFF#8) (start.setPc 0xFFFF#16))).pc = 0x0001#16 := by decide +kernel

theorem test_witness_Call : (deep 31).stack.length < 32 ∧ (deep 32).stack.length = 32 := by decide +kernel

theorem test_witness_Return : (deep 1).stack = [0x0202#16] ∧ start.stack = [] := ⟨rfl, rfl⟩

theorem test_witness_CallThenReturn :
    (deep 31).stack.length < 32 ∧ exec (.call 0xFFF#12) (deep 31) = .next (after (exec (.call 0xFFF#12) (deep 31))) ∧
    ((after (exec (.call 0xFFF#12) (deep 31))).setPc 0x0123#16).stack =
      (after (exec (.call 0xFFF#12) (deep 31))).stack :=
  ⟨by decide +kernel, next_after (by decide +kernel), rfl⟩

/-- A destination that is not VF, and sums and differences on both sides of the flag's condition. -/
theorem test_witness_Arithmetic :
    (0 : Reg) ≠ VF ∧
    ¬ 255 < ((setV start [(0, 0xFE#8), (1, 0x01#8)]).readV 0).toNat + ((setV start [(0, 0xFE#8), (1, 0x01#8)]).readV 1).toNat ∧
    255 < ((setV start [(0, 0xFF#8), (1, 0x01#8)]).readV 0).toNat + ((setV start [(0, 0xFF#8), (1, 0x01#8)]).readV 1).toNat ∧
    (start.readV 0).toNat ≤ (start.readV 1).toNat ∧
    ¬ (start.readV 0).toNat ≤ ((start.writeV 1 0xFE#8).readV 1).toNat := by decide +kernel

theorem test_witness_Random : start.randBytes = [0xAB#8] ∧ State.reset.randBytes = [] := ⟨rfl, rfl⟩

theorem test_witness_IndexAdd :
    (start.setI 0xFF00#16).i.toNat + (start.readV 0).toNat ≤ 0xFFFF ∧
    0xFFFF < (start.setI 0xFF01#16).i.toNat + (start.readV 0).toNat := by decide +kernel

theorem test_witness_DecimalDigits :
    (start.setI 0x0FFD#16).i.toNat + 2 ≤ 0xFFF ∧ 0xFFF < (start.setI 0x0FFE#16).i.toNat + 2 := by decide +kernel

theorem test_witness_BulkStore :
    (start.setI 0x0FF0#16).i.toNat + (15 : Reg).val ≤ 0xFFF ∧ (start.setI 0x0FFF#16).i.toNat + (0 : Reg).val ≤ 0xFFF ∧
    0xFFF < (start.setI 0x0FF1#16).i.toNat + (15 : Reg).val ∧ (15 : Reg).val ≤ (15 : Reg).val := by decide +kernel

theorem test_witness_BulkLoad :
    (start.setI 0x0FF0#16).i.toNat + (15 : Reg).val ≤ 0xFFF ∧ 0xFFF < (start.setI 0x1000#16).i.toNat + (0 : Reg).val ∧
    (0 : Reg).val < (1 : Reg).val := by decide +kernel

/-- D7, D9, D8 for the range; D5 for a collision, D2 for none. -/
theorem test_witness_Draw :
    (0 : Fin 16).val = 0 ∧ (start.setI 0x0FF1#16).i.toNat + (15 : Fin 16).val - 1 ≤ 0xFFF ∧
    (1 ≤ (15 : Fin 16).val ∧ 0xFFF < (start.setI 0x0FF2#16).i.toNat + (15 : Fin 16).val - 1) ∧
    (((sprite 0xC0#8 0#8 0#8).setFb (start.fb.flip 1 0)).pixel 1 0 = true ∧
      spriteBit ((sprite 0xC0#8 0#8 0#8).setFb (start.fb.flip 1 0)) 0 0 1 1 0 = true) ∧
    spriteBit (sprite 0xFF#8 60#8 0#8) 60 0 1 63 0 = true ∧ spriteBit (sprite 0xFF#8 60#8 0#8) 60 0 1 59 0 = false := by
  decide +kernel

/-- The states of a double draw: the first draw, then the second with nothing changed between. -/
def drawnOnce : State := after (exec (.drw 0 1 1) (sprite 0xFF#8 60#8 0#8))

theorem test_witness_DrawingTwice :
    exec (.drw 0 1 1) (sprite 0xFF#8 60#8 0#8) = .next drawnOnce ∧
    (sprite 0xFF#8 60#8 0#8).i.toNat + (1 : Fin 16).val - 1 ≤ 0xFFF ∧
    drawnOnce.i = (sprite 0xFF#8 60#8 0#8).i ∧ drawnOnce.readV 0 = (sprite 0xFF#8 60#8 0#8).readV 0 ∧
    drawnOnce.readV 1 = (sprite 0xFF#8 60#8 0#8).readV 1 ∧
    drawnOnce.readByte 0x400 = (sprite 0xFF#8 60#8 0#8).readByte 0x400 ∧
    exec (.drw 0 1 1) drawnOnce = .next (after (exec (.drw 0 1 1) drawnOnce)) ∧
    pixels (after (exec (.drw 0 1 1) drawnOnce)) = [] :=
  ⟨next_after (by decide +kernel), by decide +kernel, by decide +kernel, by decide +kernel, by decide +kernel,
    by decide +kernel, next_after (by decide +kernel), by decide +kernel⟩

/-- A step whose fetch reads `LD V1, DT`. -/
theorem test_witness_TimerInstructions :
    timed.waiting = false ∧ timed.halted = false ∧ (0 : Rat) ≤ 1 / 60 ∧ timed.fetch = some 0xF107#16 ∧
    decodeWord 0xF107#16 = some (.ldVDt 1) :=
  ⟨rfl, rfl, by decide +kernel, by decide +kernel, by decide +kernel⟩

/-- V17: the highest target; and the lowest that halts. -/
theorem test_witness_Jumps :
    0xFFF ≤ (0xFFF#12 : BitVec 12).toNat + (start.readV 0).toNat ∧
    0xFFF ≤ (0xF00#12 : BitVec 12).toNat + (start.readV 0).toNat ∧
    ¬ 0xFFF ≤ (0xEFF#12 : BitVec 12).toNat + (start.readV 0).toNat := by decide +kernel

theorem test_witness_KeySkips :
    (((start.writeV 4 0x0F#8).setKey 15 true).readV 4).toNat = (15 : Key).val ∧
    ((start.writeV 4 0x0F#8).setKey 15 true).keyDown 15 = true ∧
    ((start.writeV 4 0x00#8).readV 4).toNat = (0 : Key).val ∧ (start.writeV 4 0x00#8).keyDown 0 = false ∧
    15 < ((start.writeV 4 0x10#8).readV 4).toNat := by decide +kernel

/-- The reset state meets both invariants and has a next state. -/
theorem test_witness_Invariants :
    State.reset.mem.wf ∧ 0 ≤ State.reset.acc ∧ State.reset.acc < Config.tick ∧
    State.reset.stack.length ≤ Config.callStackDepth ∧ ¬ (State.reset.waiting = true ∧ State.reset.halted = true) ∧
    State.reset.pc.toNat ≤ 0x10FE ∧ (∀ a ∈ State.reset.stack, a.toNat ≤ 0x1000) ∧
    step State.reset = .next (after (step State.reset)) :=
  ⟨by decide +kernel, by decide +kernel, by decide +kernel, by decide +kernel, by decide +kernel, by decide +kernel,
    fun _ h => absurd h List.not_mem_nil, next_after (by decide +kernel)⟩

/-- The invariant also holds of a waiting state with cells in memory, a full stack and the PC at its bound. -/
theorem test_witness_Invariants_boundary :
    Memory.wf ((deep 32).writeByte 0xFFF 0x00#8).mem ∧ (deep 32).stack.length ≤ Config.callStackDepth ∧
    (0x10FE#16 : Word).toNat ≤ 0x10FE ∧ (59 : Rat) / 3600 < Config.tick := by decide +kernel

/-- Every reason of R129 that an instruction raises has a state that meets its condition, at its boundary. -/
theorem test_witness_HaltConditions :
    start.halt = none ∧ haltCondition (deep 32) .stackOverflow (.call 0#12) ∧
    haltCondition start .stackUnderflow .ret ∧
    haltCondition (start.setI 0x0FFE#16) .memoryOutOfRange (.ldB 0) ∧
    haltCondition (start.setI 0x0FF1#16) .memoryOutOfRange (.store 15) ∧
    haltCondition (start.setI 0x0FF1#16) .memoryOutOfRange (.load 15) ∧
    haltCondition (start.setI 0x0FF2#16) .memoryOutOfRange (.drw 0 0 15) ∧
    haltCondition (start.writeV 4 0x10#8) .keyIndexOutOfRange (.skp 4) ∧
    haltCondition (start.writeV 4 0x10#8) .keyIndexOutOfRange (.sknp 4) ∧
    haltCondition (start.setI 0xFF01#16) .indexOverflow (.addI 0) := by
  simp only [haltCondition]
  decide +kernel

theorem test_witness_HaltingInstruction :
    start.halt = none ∧ exec .ret start = .next (after (exec .ret start)) ∧
    (after (exec .ret start)).halt = some .stackUnderflow := ⟨rfl, rfl, rfl⟩

/-- A step that halts on its fetch, at the lowest such PC, one that halts on an unrecognized word, and one that does not
halt. -/
theorem test_witness_HaltingStep :
    start.halted = false ∧ 4096 ≤ (start.setPc 0x0FFF#16).pc.toNat + 1 ∧
    (after (stepElapsed 0 (start.setPc 0x0FFF#16))).halt = some .memoryOutOfRange ∧
    (start.setPc 0x0FFE#16).pc.toNat + 1 < 4096 ∧
    (after (stepElapsed 0 (start.setPc 0x0FFE#16))).halt = some .unrecognizedInstruction ∧
    answers (stepElapsed (1 / 60) timed) = true ∧ (after (stepElapsed (1 / 60) timed)).halt = none :=
  ⟨rfl, by decide +kernel, by decide +kernel, by decide +kernel, by decide +kernel, by decide +kernel,
    by decide +kernel⟩

/-- A halted core on which the host sets a key. -/
def halted : State := (start.setHalt .stackUnderflow).setHost [.setKeydown 3 true]

theorem test_witness_HaltIsPermanent :
    halted.halted = true ∧ step halted = .next (after (step halted)) ∧ halted.mem.wf ∧ 0 ≤ halted.acc ∧
    halted.acc < Config.tick ∧ halted.stack.length ≤ Config.callStackDepth ∧ halted.waiting = false :=
  ⟨rfl, next_after (by decide +kernel), by decide +kernel, by decide +kernel, by decide +kernel, by decide +kernel, rfl⟩

theorem test_witness_InstructionsWriteOnlyTheirParts :
    exec (.store 1) (start.setI 0x0400#16) = .next (after (exec (.store 1) (start.setI 0x0400#16))) :=
  next_after (by decide +kernel)

/-- LD ST, LD DT, LD Vx, DT and the key skips are other instructions than ADD Vx, k, which runs. -/
theorem test_witness_InstructionsDoNotReadHiddenState :
    exec (.addK 0 1#8) start = .next (after (exec (.addK 0 1#8) start)) ∧ (∀ x, Instr.addK 0 1#8 ≠ .ldStV x) ∧
    (∀ x, Instr.addK 0 1#8 ≠ .ldDtV x ∧ Instr.addK 0 1#8 ≠ .ldVDt x) ∧
    (∀ x, Instr.addK 0 1#8 ≠ .skp x ∧ Instr.addK 0 1#8 ≠ .sknp x) := by
  refine ⟨rfl, ?_, ?_, ?_⟩ <;> intro x <;> simp

theorem test_witness_LoadedWordRunsNext : decodeTableWord 16 0xD01F = some (.drw 0 1 15) := by decide +kernel

end Sys2Proof.Tests
end

section
/-! SUPPORT. What each operation can do, said once: an instruction either halts under the condition of R129 and changes
nothing else, or it completes with the state `effect` names; a step and a host operation by their inversion lemmas. -/

namespace Sys2Proof.Machine

/-! ### Instructions -/

/-- The state in which an instruction completes when none of its halt conditions holds. -/
def effect (i : Instr) (s : State) : State :=
  match i with
  | .cls => s.setFb Framebuffer.clear
  | .ret => (s.setStack s.stack.tail).setPc (s.stack.headD 0)
  | .jp addr => s.setPc (addressOperand addr)
  | .call addr => (s.push s.pc).setPc (addressOperand addr)
  | .seK x k => s.skipIf (s.readV x == k)
  | .sneK x k => s.skipIf (s.readV x != k)
  | .seV x y => s.skipIf (s.readV x == s.readV y)
  | .ldK x k => s.writeV x k
  | .addK x k => s.writeV x (s.readV x + k)
  | .ldV x y => s.writeV x (s.readV y)
  | .orV x y => s.writeV x (s.readV x ||| s.readV y)
  | .andV x y => s.writeV x (s.readV x &&& s.readV y)
  | .xorV x y => s.writeV x (s.readV x ^^^ s.readV y)
  | .addV x y => s.writeResultFlag x (s.readV x + s.readV y) (flagByte (carryOut (s.readV x) (s.readV y)))
  | .subV x y => s.writeResultFlag x (s.readV x - s.readV y) (flagByte (noBorrow (s.readV x) (s.readV y)))
  | .shrV x y => s.writeResultFlag x (s.readV y >>> 1) (flagByte (shiftedOutRight (s.readV y)))
  | .subnV x y => s.writeResultFlag x (s.readV y - s.readV x) (flagByte (noBorrow (s.readV y) (s.readV x)))
  | .shlV x y => s.writeResultFlag x (s.readV y <<< 1) (flagByte (shiftedOutLeft (s.readV y)))
  | .sneV x y => s.skipIf (s.readV x != s.readV y)
  | .ldI addr => s.setI (addressOperand addr)
  | .jpV0 addr => s.setPc (offsetTarget addr (s.readV 0))
  | .rnd x k => s.drawn.writeV x (s.nextRandom &&& k)
  | .drw x y n => drawEffect x y n s
  | .skp x => s.skipIf (s.keyDown (Fin.ofNat 16 (s.readV x).toNat))
  | .sknp x => s.skipIf (!s.keyDown (Fin.ofNat 16 (s.readV x).toNat))
  | .ldVDt x => s.writeV x s.dt
  | .ldVKey x => s.arm x
  | .ldDtV x => s.setDt (s.readV x)
  | .ldStV x => s.setSt (s.readV x)
  | .addI x => s.setI (BitVec.ofNat 16 (s.i.toNat + (s.readV x).toNat))
  | .ldF x => s.setI (glyphAddress (s.readV x))
  | .ldB x => storeDigits (s.readV x) s
  | .store x => (List.range (x.val + 1)).foldl storeOne s
  | .load x => (List.range (x.val + 1)).foldl loadOne s

/-- A key check that passes runs its continuation on the key of the register's value. -/
theorem withKey_ofNat {v : Byte} (h : v.toNat < 16) (s : State) (k : Key → Result) :
    withKey v s k = k (Fin.ofNat 16 v.toNat) := by
  rw [withKey_pos h]
  congr 1
  exact Fin.ext (Nat.mod_eq_of_lt h).symm

/-- An instruction under one of its halt conditions halts for that reason and does nothing else (R76, R129). -/
theorem exec_of_haltCondition {i : Instr} {s : State} {r : HaltReason} (h : haltCondition s r i) :
    exec i s = raiseHalt r s := by
  have hsize : Config.memSize = 4096 := rfl
  unfold haltCondition at h
  split at h
  next addr => exact if_neg (Nat.not_lt_of_le h)
  next => simp [exec, execRet, h]
  next x => exact withBytes_neg (by omega) _ _
  next x => exact withBytes_neg (by omega) _ _
  next x => exact withBytes_neg (by omega) _ _
  next x y n =>
    have hn : n.val ≠ 0 := by omega
    exact (if_neg hn).trans (withBytes_neg (by omega) _ _)
  next x => rw [exec, execSkp, withKey_neg (Nat.not_lt.mpr h)]
  next x => rw [exec, execSknp, withKey_neg (Nat.not_lt.mpr h)]
  next x => exact if_neg (by omega)
  next => exact h.elim

/-- An instruction under none of its halt conditions completes with its effect. -/
theorem exec_of_not_haltCondition {i : Instr} {s : State} (h : ∀ r, ¬ haltCondition s r i) :
    exec i s = .next (effect i s) := by
  have hsize : Config.memSize = 4096 := rfl
  cases i with
  | ret =>
    have hs : s.stack ≠ [] := h .stackUnderflow
    obtain ⟨a, rest, hs⟩ := List.exists_cons_of_ne_nil hs
    simp [exec, execRet, effect, hs]
  | call addr => exact if_pos (Nat.lt_of_not_le (h .stackOverflow))
  | ldB x =>
    have hi : ¬ 0xFFF < s.i.toNat + 2 := h .memoryOutOfRange
    exact withBytes_pos (by omega) _ _
  | store x =>
    have hi : ¬ 0xFFF < s.i.toNat + x.val := h .memoryOutOfRange
    exact withBytes_pos (by omega) _ _
  | load x =>
    have hi : ¬ 0xFFF < s.i.toNat + x.val := h .memoryOutOfRange
    exact withBytes_pos (by omega) _ _
  | drw x y n =>
    have hi : ¬ (1 ≤ n.val ∧ 0xFFF < s.i.toNat + n.val - 1) := h .memoryOutOfRange
    by_cases hn : n.val = 0
    · exact if_pos hn
    · exact (if_neg hn).trans (withBytes_pos (by omega) _ _)
  | skp x =>
    have hk : (s.readV x).toNat < 16 := Nat.lt_succ_of_le (Nat.not_lt.mp (h .keyIndexOutOfRange))
    rw [exec, execSkp, withKey_ofNat hk, effect]
  | sknp x =>
    have hk : (s.readV x).toNat < 16 := Nat.lt_succ_of_le (Nat.not_lt.mp (h .keyIndexOutOfRange))
    rw [exec, execSknp, withKey_ofNat hk, effect]
  | addI x =>
    have hi : ¬ 0xFFFF < s.i.toNat + (s.readV x).toNat := h .indexOverflow
    exact if_pos (by omega)
  | _ => rfl

/-- What an instruction can answer: the halt of a condition that holds, or its effect where none does. -/
theorem exec_next {i : Instr} {s t : State} (h : exec i s = .next t) :
    (∃ r, haltCondition s r i ∧ t = s.setHalt r) ∨ ((∀ r, ¬ haltCondition s r i) ∧ t = effect i s) := by
  by_cases hr : ∃ r, haltCondition s r i
  · obtain ⟨r, hr⟩ := hr
    rw [exec_of_haltCondition hr] at h
    exact .inl ⟨r, hr, raiseHalt_next.mp h⟩
  · have hr : ∀ r, ¬ haltCondition s r i := not_exists.mp hr
    rw [exec_of_not_haltCondition hr, Host.Outcome.next.injEq] at h
    exact .inr ⟨hr, h.symm⟩

/-! ### Steps -/

/-- What fetching and executing can answer: the halt of a fetch out of range, the halt of an unrecognized word with PC
past it, or what the decoded instruction answers with PC past it (R74, R75, R131). -/
theorem fetchExecute_next {s t : State} (h : fetchExecute s = .next t) :
    (Config.memSize ≤ s.pc.toNat + 1 ∧ t = s.setHalt .memoryOutOfRange) ∨
    (∃ w, s.fetch = some w ∧ decodeWord w = none ∧ t = s.advancePc.setHalt .unrecognizedInstruction) ∨
    (∃ w i, s.fetch = some w ∧ decodeWord w = some i ∧ exec i s.advancePc = .next t) := by
  unfold fetchExecute at h
  split at h
  next hf => exact .inl ⟨State.fetch_eq_none.mp hf, raiseHalt_next.mp h⟩
  next w hf =>
    split at h
    next hd => exact .inr (.inl ⟨w, hf, hd, raiseHalt_next.mp h⟩)
    next i hd => exact .inr (.inr ⟨w, i, hf, hd, h⟩)

/-- What `step(elapsed)` can answer, and when: the core is not halted and the time not negative; a waiting core only
keeps time, another fetches and executes after it (R68, R73). -/
theorem stepElapsed_next {e : Rat} {s t : State} (h : stepElapsed e s = .next t) :
    s.halted = false ∧ 0 ≤ e ∧
    ((s.waiting = true ∧ t = s.elapse e) ∨ (s.waiting = false ∧ fetchExecute (s.elapse e) = .next t)) := by
  unfold stepElapsed at h
  split at h
  · cases h
  next hh =>
    refine ⟨Bool.eq_false_of_not_eq_true hh, ?_⟩
    split at h
    next he =>
      refine ⟨wellFormedElapsed_iff.mp he, ?_⟩
      split at h
      next hw => exact .inl ⟨hw, (Host.Outcome.next.inj h).symm⟩
      next hw => exact .inr ⟨Bool.eq_false_of_not_eq_true hw, h⟩
    · cases h

/-- What `set_keydown` can do: nothing for an index outside 0 to 15, resolve the wait on a release of a key recorded as
down, else record the key (R121, R122). -/
theorem setKeydown_cases (k : Int) (down : Bool) (s : State) :
    (¬ (0 ≤ k ∧ k ≤ 15) ∧ setKeydown k down s = s) ∨
    ∃ key : Key, k = key.val ∧
      ((s.waiting = true ∧ s.keyDown key = true ∧ down = false ∧
          setKeydown k down s = (s.setKey key down).resolveWait key) ∨
       (¬ (s.waiting = true ∧ s.keyDown key = true ∧ down = false) ∧ setKeydown k down s = s.setKey key down)) := by
  by_cases hk : 0 ≤ k ∧ k ≤ 15
  · obtain ⟨n, rfl⟩ := Int.eq_ofNat_of_zero_le hk.1
    have hn : n < 16 := by omega
    refine .inr ⟨⟨n, hn⟩, rfl, ?_⟩
    rw [setKeydown_key ⟨n, hn⟩]
    by_cases hw : s.waiting = true ∧ s.keyDown ⟨n, hn⟩ = true ∧ down = false
    · obtain ⟨h1, h2, h3⟩ := hw
      exact .inl ⟨h1, h2, h3, by simp [h1, h2, h3]⟩
    · exact .inr ⟨hw, if_neg (by simpa [and_assoc] using hw)⟩
  · exact .inl ⟨hk, setKeydown_outside hk down s⟩

theorem step_of_host_step {s : State} {e : Rat} {rest : List HostOp} (h : s.host = .step e :: rest) :
    step s = stepElapsed e (s.setHost rest) := by
  simp [step, performNext, nextHostOp, h, hostOperation]

theorem step_of_host_setKeydown {s : State} {k : Int} {down : Bool} {rest : List HostOp}
    (h : s.host = .setKeydown k down :: rest) : step s = .next (setKeydown k down (s.setHost rest)) := by
  simp [step, performNext, nextHostOp, h, hostOperation]

theorem step_of_host_nil {s : State} (h : s.host = []) : step s = stepElapsed 0 (s.setHost []) := by
  simp [step, performNext, nextHostOp, h, hostOperation]

/-- What a transition can be: a `set_keydown` or a `step(elapsed)`, on the state with the host's list moved on (R32). -/
theorem step_next {s t : State} (h : step s = .next t) :
    (∃ k down rest, s.host = .setKeydown k down :: rest ∧ t = setKeydown k down (s.setHost rest)) ∨
    (∃ e rest, nextHostOp s = (.step e, rest) ∧ stepElapsed e (s.setHost rest) = .next t) := by
  cases hs : s.host with
  | nil => exact .inr ⟨0, [], by simp [nextHostOp, hs], (step_of_host_nil hs).symm.trans h⟩
  | cons op rest =>
    cases op with
    | step e => exact .inr ⟨e, rest, by simp [nextHostOp, hs], (step_of_host_step hs).symm.trans h⟩
    | setKeydown k down =>
      have ht := (step_of_host_setKeydown hs).symm.trans h
      exact .inl ⟨k, down, rest, rfl, (Host.Outcome.next.inj ht).symm⟩

end Sys2Proof.Machine
end

section
/-! SUPPORT. What an instruction leaves unchanged and what it does not read. -/

namespace Sys2Proof.Machine

/-! ### Frames of single updates -/

theorem unchangedBut_setFb (s : State) (fb : Framebuffer) : UnchangedBut [.fb] s (s.setFb fb) := by
  intro p hp
  cases p <;> simp_all [sameIn]

theorem unchangedBut_setStack (s : State) (l : List Word) : UnchangedBut [.stack] s (s.setStack l) := by
  intro p hp
  cases p <;> simp_all [sameIn]

theorem unchangedBut_drawn (s : State) : UnchangedBut [.source] s s.drawn := by
  intro p hp
  cases p <;> simp_all [sameIn]

theorem unchangedBut_setDt (s : State) (w : Byte) : UnchangedBut [.dt] s (s.setDt w) := by
  intro p hp
  cases p <;> simp_all [sameIn]

theorem unchangedBut_setSt (s : State) (w : Byte) : UnchangedBut [.st] s (s.setSt w) := by
  intro p hp
  cases p <;> simp_all [sameIn]

theorem unchangedBut_arm (s : State) (x : Reg) : UnchangedBut [.wait] s (s.arm x) := by
  intro p hp
  cases p <;> simp_all [sameIn]

theorem unchangedBut_setKey (s : State) (k : Key) (down : Bool) : UnchangedBut [.keys] s (s.setKey k down) := by
  intro p hp
  cases p <;> simp_all [sameIn]

theorem unchangedBut_setHost (s : State) (ops : List HostOp) : UnchangedBut [.hostOps] s (s.setHost ops) := by
  intro p hp
  cases p <;> simp_all [sameIn]

theorem unchangedBut_writeByte (s : State) (a : Nat) (w : Byte) : UnchangedBut [.mem] s (s.writeByte a w) :=
  (bytesUnchangedBut_writeByte s a w).2

theorem unchangedBut_writeV (s : State) (x : Reg) (w : Byte) : UnchangedBut [.v] s (s.writeV x w) :=
  (onlyRegs_writeV (List.mem_singleton_self x) s w).2

theorem unchangedBut_writeResultFlag (s : State) (x : Reg) (w f : Byte) :
    UnchangedBut [.v] s (s.writeResultFlag x w f) := (onlyRegs_writeResultFlag s x w f).2

/-! ### Frames of changes one after the other -/

/-- Two changes change no more than the parts of both. -/
theorem UnchangedBut.append {ps qs : List Part} {s t u : State} (h : UnchangedBut ps s t) (k : UnchangedBut qs t u) :
    UnchangedBut (ps ++ qs) s u :=
  (h.mono fun _ hp => List.mem_append_left qs hp).trans (k.mono fun _ hq => List.mem_append_right ps hq)

/-- A loop changes no more than the parts its rounds change. -/
theorem UnchangedBut.foldl {ps : List Part} {f : State → Nat → State} (hf : ∀ s j, UnchangedBut ps s (f s j))
    (js : List Nat) (s : State) : UnchangedBut ps s (js.foldl f s) := by
  induction js generalizing s with
  | nil => exact .refl ps s
  | cons j js ih => exact (hf s j).trans (ih (f s j))

theorem unchangedBut_storeOne (s : State) (j : Nat) : UnchangedBut [.mem, .i] s (storeOne s j) :=
  (unchangedBut_writeByte s _ _).append (unchangedBut_setI _ _)

theorem unchangedBut_loadOne (s : State) (j : Nat) : UnchangedBut [.v, .i] s (loadOne s j) :=
  (unchangedBut_writeV s _ _).append (unchangedBut_setI _ _)

theorem unchangedBut_storeDigits (v : Byte) (s : State) : UnchangedBut [.mem] s (storeDigits v s) :=
  ((unchangedBut_writeByte s _ _).trans (unchangedBut_writeByte _ _ _)).trans (unchangedBut_writeByte _ _ _)

theorem unchangedBut_drawEffect (x y : Reg) (n : Fin 16) (s : State) :
    UnchangedBut [.fb, .v] s (drawEffect x y n s) :=
  (unchangedBut_setFb s _).append (unchangedBut_writeV _ _ _)

/-! ### The frame of an instruction -/

/-- An instruction that completes changes only the parts its rule names. -/
theorem unchangedBut_effect (i : Instr) (s : State) : UnchangedBut (mayWrite i) s (effect i s) := by
  cases i with
  | cls => exact unchangedBut_setFb _ _
  | ret => exact ((unchangedBut_setStack s _).append (unchangedBut_setPc _ _)).mono (by simp [mayWrite])
  | call addr => exact ((unchangedBut_setStack s _).append (unchangedBut_setPc _ _)).mono (by simp [mayWrite])
  | jp | jpV0 => exact unchangedBut_setPc _ _
  | seK | sneK | seV | sneV | skp | sknp => exact unchangedBut_skipIf _ _
  | ldK | addK | ldV | orV | andV | xorV | ldVDt => exact unchangedBut_writeV _ _ _
  | addV | subV | shrV | subnV | shlV => exact unchangedBut_writeResultFlag _ _ _ _
  | rnd x k => exact ((unchangedBut_drawn s).append (unchangedBut_writeV _ _ _)).mono (by simp [mayWrite])
  | drw x y n => exact (unchangedBut_drawEffect x y n s).mono (by simp [mayWrite])
  | ldI | addI | ldF => exact unchangedBut_setI _ _
  | ldB x => exact unchangedBut_storeDigits _ _
  | store x => exact .foldl unchangedBut_storeOne _ s
  | load x => exact .foldl unchangedBut_loadOne _ s
  | ldVKey x => exact unchangedBut_arm _ _
  | ldDtV x => exact unchangedBut_setDt _ _
  | ldStV x => exact unchangedBut_setSt _ _

/-- No instruction's rule names the accumulator (R22). -/
@[simp] theorem effect_acc (i : Instr) (s : State) : (effect i s).acc = s.acc :=
  unchangedBut_effect i s .acc (by cases i <;> simp [mayWrite])

/-- An instruction that completes leaves the halt as it was. -/
@[simp] theorem effect_halt (i : Instr) (s : State) : (effect i s).halt = s.halt :=
  unchangedBut_effect i s .halt (by cases i <;> simp [mayWrite])

/-! ### What an instruction does not read -/

/-- A change of the accumulator, the timers and the key states. -/
structure HiddenChange where
  acc : Rat → Rat := id
  dt : Byte → Byte := id
  st : Byte → Byte := id
  keys : Vector Bool 16 → Vector Bool 16 := id

/-- The state with its accumulator, timers and key states changed. -/
def State.changeHidden (s : State) (c : HiddenChange) : State :=
  { s with acc := c.acc s.acc, dt := c.dt s.dt, st := c.st s.st, keys := c.keys s.keys }

/-- The change leaves alone what the instruction's rule reads or writes of these parts: ST for LD ST, DT for LD DT and
LD Vx, DT, the key states for SKP and SKNP (R20, R21, R24). The accumulator may change for every instruction (R22). -/
structure HiddenChange.HiddenFrom (c : HiddenChange) (i : Instr) : Prop where
  st : c.st = id ∨ ∀ x, i ≠ .ldStV x
  dt : c.dt = id ∨ ∀ x, i ≠ .ldDtV x ∧ i ≠ .ldVDt x
  keys : c.keys = id ∨ ∀ x, i ≠ .skp x ∧ i ≠ .sknp x

@[simp] theorem State.readV_changeHidden (s : State) (c : HiddenChange) (x : Reg) :
    (s.changeHidden c).readV x = s.readV x := rfl

theorem State.changeHidden_skipIf (s : State) (c : HiddenChange) (b : Bool) :
    (s.changeHidden c).skipIf b = (s.skipIf b).changeHidden c := by
  cases b <;> rfl

theorem State.keyDown_changeHidden {c : HiddenChange} (hc : c.keys = id) (s : State) (k : Key) :
    (s.changeHidden c).keyDown k = s.keyDown k := by
  simp [State.keyDown, State.changeHidden, hc]

/-- No halt condition reads the accumulator, a timer or a key state. -/
theorem haltCondition_changeHidden (s : State) (c : HiddenChange) (r : HaltReason) (i : Instr) :
    haltCondition (s.changeHidden c) r i ↔ haltCondition s r i := Iff.rfl

/-- A change that is hidden from an instruction stays as it is and changes nothing else of the instruction's effect. -/
theorem effect_changeHidden {i : Instr} {c : HiddenChange} (hc : c.HiddenFrom i) (s : State) :
    effect i (s.changeHidden c) = (effect i s).changeHidden c := by
  cases i with
  | seK | sneK | seV | sneV => exact s.changeHidden_skipIf c _
  | skp x =>
    have hk : c.keys = id := hc.keys.resolve_right fun h => (h x).1 rfl
    simp only [effect, State.keyDown_changeHidden hk, State.changeHidden_skipIf, State.readV_changeHidden]
  | sknp x =>
    have hk : c.keys = id := hc.keys.resolve_right fun h => (h x).2 rfl
    simp only [effect, State.keyDown_changeHidden hk, State.changeHidden_skipIf, State.readV_changeHidden]
  | ldVDt x =>
    have hd : c.dt = id := hc.dt.resolve_right fun h => (h x).2 rfl
    simp [effect, State.changeHidden, State.writeV, hd]
  | ldDtV x =>
    have hd : c.dt = id := hc.dt.resolve_right fun h => (h x).1 rfl
    simp [effect, State.changeHidden, State.setDt, State.readV, hd]
  | ldStV x =>
    have hs : c.st = id := hc.st.resolve_right fun h => h x rfl
    simp [effect, State.changeHidden, State.setSt, State.readV, hs]
  | store x => exact List.foldl_hom (State.changeHidden · c) fun _ _ => rfl
  | load x => exact List.foldl_hom (State.changeHidden · c) fun _ _ => rfl
  | _ => rfl

/-- A change that is hidden from an instruction changes nothing else of what the instruction answers. -/
theorem exec_changeHidden {i : Instr} {c : HiddenChange} (hc : c.HiddenFrom i) {s t : State} (h : exec i s = .next t) :
    exec i (s.changeHidden c) = .next (t.changeHidden c) := by
  obtain ⟨r, hr, rfl⟩ | ⟨hr, rfl⟩ := exec_next h
  · exact exec_of_haltCondition ((haltCondition_changeHidden s c r i).mpr hr)
  · rw [← effect_changeHidden hc]
    exact exec_of_not_haltCondition fun r => (haltCondition_changeHidden s c r i).not.mpr (hr r)

end Sys2Proof.Machine
end

section
/-! SUPPORT. The invariants of R36: every transition keeps them, and construction starts with them. -/

namespace Sys2Proof.Machine

/-! ### Time -/

/-- Fewer ticks than the fuel allows leave less than one tick in the accumulator (R70). -/
theorem takeTicks_acc_range (n : Nat) (c : Clock) (h0 : 0 ≤ c.acc) (hn : c.acc < (n + 1) * Config.tick) :
    0 ≤ (takeTicks n c).acc ∧ (takeTicks n c).acc < Config.tick := by
  induction n generalizing c with
  | zero => exact ⟨h0, by simpa using hn⟩
  | succ n ih =>
    rw [takeTicks_succ]
    split
    next h =>
      push_cast at hn
      exact ih _ (sub_nonneg.mpr h) (by show c.acc - Config.tick < _; linarith)
    next h => exact ⟨h0, not_le.mp h⟩

/-- The tick bound is enough fuel: the accumulator holds less than one tick more. -/
theorem lt_tickBound_succ_mul_tick {a : Rat} (h : 0 ≤ a) : a < (tickBound a + 1) * Config.tick := by
  have ht : (0 : Rat) < Config.tick := by norm_num [Config.tick]
  have hf : (0 : Int) ≤ (a / Config.tick).floor := Rat.le_floor_iff.mpr (by positivity)
  have hb : ((tickBound a : Nat) : Rat) = (a / Config.tick).floor := by
    exact_mod_cast congrArg (Int.cast (R := Rat)) (Int.toNat_of_nonneg hf)
  rw [hb, ← div_lt_iff₀ ht]
  exact Int.lt_floor_add_one _

/-- Time that elapses leaves the accumulator between 0 and one tick. -/
theorem Clock.elapse_acc_range {c : Clock} {e : Rat} (hc : 0 ≤ c.acc) (he : 0 ≤ e) :
    0 ≤ (c.elapse e).acc ∧ (c.elapse e).acc < Config.tick :=
  have h : 0 ≤ c.acc + e := add_nonneg hc he
  takeTicks_acc_range _ _ h (lt_tickBound_succ_mul_tick h)

/-! ### The invariant, one operation after the other -/

theorem State.Inv.setHost {s : State} (h : s.Inv) (ops : List HostOp) : (s.setHost ops).Inv :=
  ⟨h.memory, h.accNonneg, h.accBelowTick, h.depth, h.exclusive⟩

theorem State.Inv.advancePc {s : State} (h : s.Inv) : s.advancePc.Inv :=
  ⟨h.memory, h.accNonneg, h.accBelowTick, h.depth, h.exclusive⟩

theorem State.Inv.setKey {s : State} (h : s.Inv) (k : Key) (down : Bool) : (s.setKey k down).Inv :=
  ⟨h.memory, h.accNonneg, h.accBelowTick, h.depth, h.exclusive⟩

theorem State.Inv.resolveWait {s : State} (h : s.Inv) (k : Key) : (s.resolveWait k).Inv :=
  ⟨h.memory, h.accNonneg, h.accBelowTick, h.depth, by simp⟩

theorem State.Inv.elapse {s : State} (h : s.Inv) {e : Rat} (he : 0 ≤ e) : (s.elapse e).Inv :=
  have hacc := Clock.elapse_acc_range (c := s.clock) h.accNonneg he
  ⟨h.memory, hacc.1, hacc.2, h.depth, h.exclusive⟩

/-- A halt keeps the invariant where no wait is armed. -/
theorem State.Inv.setHalt {s : State} (h : s.Inv) (hw : s.waiting = false) (r : HaltReason) : (s.setHalt r).Inv :=
  ⟨h.memory, h.accNonneg, h.accBelowTick, h.depth, by simp [hw]⟩

theorem State.Inv.setKeydown {s : State} (h : s.Inv) (k : Int) (down : Bool) : (setKeydown k down s).Inv := by
  obtain ⟨-, hk⟩ | ⟨key, -, ⟨-, -, -, hk⟩ | ⟨-, hk⟩⟩ := setKeydown_cases k down s <;> rw [hk]
  · exact h
  · exact (h.setKey key down).resolveWait key
  · exact h.setKey key down

/-! ### The invariant, instructions -/

/-- Loading registers leaves memory as it is, as data and not only as reads. -/
theorem loadOne_foldl_mem (js : List Nat) (s : State) : (js.foldl loadOne s).mem = s.mem := by
  induction js generalizing s with
  | nil => rfl
  | cons j js ih => exact ih (loadOne s j)

/-- LD B and LD [I] write inside memory where they do not halt, and no other instruction writes memory. -/
theorem effect_memory_wf {i : Instr} {s : State} (hs : s.mem.wf) (h : ∀ r, ¬ haltCondition s r i) :
    (effect i s).mem.wf := by
  have hsize : Config.memSize = 4096 := rfl
  cases i with
  | ldB x =>
    have hi : ¬ 0xFFF < s.i.toNat + 2 := h .memoryOutOfRange
    exact storeDigits_wf _ hs (by omega)
  | store x =>
    have hi : ¬ 0xFFF < s.i.toNat + x.val := h .memoryOutOfRange
    exact storeOne_foldl_wf _ s hs (by rw [List.length_range]; omega)
  | load x => simpa only [effect, loadOne_foldl_mem] using hs
  | seK | sneK | seV | sneV | skp | sknp => simpa only [effect, State.skipIf_mem] using hs
  | _ => exact hs

/-- CALL pushes where the stack is not full, RET pops, and no other instruction changes the stack. -/
theorem effect_depth {i : Instr} {s : State} (hs : s.stack.length ≤ Config.callStackDepth)
    (h : ∀ r, ¬ haltCondition s r i) : (effect i s).stack.length ≤ Config.callStackDepth := by
  by_cases hi : .stack ∈ mayWrite i
  · cases i with
    | ret => exact (List.tail_sublist s.stack).length_le.trans hs
    | call addr => exact Nat.lt_of_not_le (h .stackOverflow)
    | _ => simp [mayWrite] at hi
  · have hstack : (effect i s).stack = s.stack := unchangedBut_effect i s .stack hi
    rwa [hstack]

/-- An instruction of a running core keeps the invariant. -/
theorem State.Inv.exec {i : Instr} {s t : State} (hs : s.Inv) (hr : s.Running) (h : exec i s = .next t) : t.Inv := by
  obtain ⟨hw, hh⟩ := hr
  obtain ⟨r, -, rfl⟩ | ⟨hc, rfl⟩ := exec_next h
  · exact hs.setHalt hw r
  · have hhalt : (effect i s).halted = false := by rw [State.halted, effect_halt]; exact hh
    refine ⟨effect_memory_wf hs.memory hc, ?_, ?_, effect_depth hs.depth hc, by simp [hhalt]⟩
    · rw [effect_acc]; exact hs.accNonneg
    · rw [effect_acc]; exact hs.accBelowTick

theorem State.Inv.fetchExecute {s t : State} (hs : s.Inv) (hr : s.Running) (h : fetchExecute s = .next t) : t.Inv := by
  obtain ⟨-, rfl⟩ | ⟨w, -, -, rfl⟩ | ⟨w, i, -, -, hi⟩ := fetchExecute_next h
  · exact hs.setHalt hr.1 _
  · exact hs.advancePc.setHalt hr.1 _
  · exact hs.advancePc.exec hr hi

theorem State.Inv.stepElapsed {e : Rat} {s t : State} (hs : s.Inv) (h : stepElapsed e s = .next t) : t.Inv := by
  obtain ⟨hh, he, ⟨-, rfl⟩ | ⟨hw, hf⟩⟩ := stepElapsed_next h
  · exact hs.elapse he
  · exact (hs.elapse he).fetchExecute ⟨hw, hh⟩ hf

/-- Every transition keeps the invariant (R36). -/
theorem State.Inv.step {s t : State} (hs : s.Inv) (h : step s = .next t) : t.Inv := by
  obtain ⟨k, down, rest, -, rfl⟩ | ⟨e, rest, -, he⟩ := step_next h
  · exact (hs.setHost rest).setKeydown k down
  · exact (hs.setHost rest).stepElapsed he

/-! ### The PC bounds -/

theorem State.PcInv.setHost {s : State} (h : s.PcInv) (ops : List HostOp) : (s.setHost ops).PcInv :=
  ⟨h.pcBound, h.returnBound⟩

theorem State.PcInv.elapse {s : State} (h : s.PcInv) (e : Rat) : (s.elapse e).PcInv := ⟨h.pcBound, h.returnBound⟩

theorem State.PcInv.setHalt {s : State} (h : s.PcInv) (r : HaltReason) : (s.setHalt r).PcInv :=
  ⟨h.pcBound, h.returnBound⟩

theorem State.PcInv.setKeydown {s : State} (h : s.PcInv) (k : Int) (down : Bool) : (setKeydown k down s).PcInv := by
  obtain ⟨-, hk⟩ | ⟨key, -, ⟨-, -, -, hk⟩ | ⟨-, hk⟩⟩ := setKeydown_cases k down s <;> rw [hk]
  · exact h
  · exact ⟨h.pcBound, h.returnBound⟩
  · exact ⟨h.pcBound, h.returnBound⟩

theorem addressOperand_toNat_lt (addr : BitVec 12) : (addressOperand addr).toNat < 0x1000 := by
  simp only [addressOperand, BitVec.toNat_setWidth]
  omega

/-- The largest target of an offset jump is 0xFFF + 0xFF (R87). -/
theorem offsetTarget_toNat_le (addr : BitVec 12) (v0 : Byte) : (offsetTarget addr v0).toNat ≤ 0x10FE := by
  simp only [offsetTarget, BitVec.toNat_add, BitVec.toNat_setWidth]
  omega

/-- Past a fetch PC is at most 0x1000 (R74). -/
theorem advancePc_pc_le {s : State} {w : Word} (h : s.fetch = some w) : s.advancePc.pc.toNat ≤ 0x1000 := by
  have hsize : Config.memSize = 4096 := rfl
  have hpc := (State.fetch_eq_some.mp h).1
  rw [State.advancePc_pc, BitVec.toNat_add]
  have h2 : (2 : Word).toNat = 2 := rfl
  omega

theorem skipIf_pc_le {s : State} (h : s.pc.toNat ≤ 0x1000) (c : Bool) : (s.skipIf c).pc.toNat ≤ 0x10FE := by
  have h2 : (2 : Word).toNat = 2 := rfl
  cases c with
  | false => rw [State.skipIf_false]; omega
  | true => rw [State.skipIf_true, State.advancePc_pc, BitVec.toNat_add]; omega

/-- An instruction that changes the call stack changes PC too. -/
theorem pc_mem_mayWrite {i : Instr} (h : .stack ∈ mayWrite i) : .pc ∈ mayWrite i := by
  cases i <;> simp_all [mayWrite]

/-- An instruction past its fetch sets PC to a jump target, a return address, or the instruction after the next, and
pushes PC or pops a return address: all inside the bounds. -/
theorem effect_pcInv {i : Instr} {s : State} (hpc : s.pc.toNat ≤ 0x1000) (hret : ∀ a ∈ s.stack, a.toNat ≤ 0x1000)
    (h : ∀ r, ¬ haltCondition s r i) : (effect i s).PcInv := by
  by_cases hi : .pc ∈ mayWrite i
  · cases i with
    | ret =>
      obtain ⟨a, rest, hs⟩ := List.exists_cons_of_ne_nil (h .stackUnderflow)
      rw [hs, List.forall_mem_cons] at hret
      simp only [effect, hs]
      exact ⟨hret.1.trans (by decide), hret.2⟩
    | jp addr => exact ⟨(addressOperand_toNat_lt addr).le.trans (by decide), hret⟩
    | call addr => exact ⟨(addressOperand_toNat_lt addr).le.trans (by decide), List.forall_mem_cons.mpr ⟨hpc, hret⟩⟩
    | jpV0 addr => exact ⟨offsetTarget_toNat_le _ _, hret⟩
    | seK | sneK | seV | sneV | skp | sknp => exact ⟨skipIf_pc_le hpc _, by rw [effect, State.skipIf_stack]; exact hret⟩
    | _ => simp [mayWrite] at hi
  · have hpcEq : (effect i s).pc = s.pc := unchangedBut_effect i s .pc hi
    have hstackEq : (effect i s).stack = s.stack := unchangedBut_effect i s .stack (mt pc_mem_mayWrite hi)
    exact ⟨hpcEq ▸ hpc.trans (by decide), hstackEq ▸ hret⟩

theorem State.PcInv.fetchExecute {s t : State} (hs : s.PcInv) (h : fetchExecute s = .next t) : t.PcInv := by
  obtain ⟨-, rfl⟩ | ⟨w, hf, -, rfl⟩ | ⟨w, i, hf, -, hi⟩ := fetchExecute_next h
  · exact hs.setHalt _
  · exact ⟨(advancePc_pc_le hf).trans (by decide), hs.returnBound⟩
  · have hpc := advancePc_pc_le hf
    obtain ⟨r, -, rfl⟩ | ⟨hc, rfl⟩ := exec_next hi
    · exact ⟨hpc.trans (by decide), hs.returnBound⟩
    · exact effect_pcInv hpc hs.returnBound hc

theorem State.PcInv.stepElapsed {e : Rat} {s t : State} (hs : s.PcInv) (h : stepElapsed e s = .next t) : t.PcInv := by
  obtain ⟨-, -, ⟨-, rfl⟩ | ⟨-, hf⟩⟩ := stepElapsed_next h
  · exact hs.elapse e
  · exact (hs.elapse e).fetchExecute hf

/-- Every transition keeps the PC bounds (R36). -/
theorem State.PcInv.step {s t : State} (hs : s.PcInv) (h : step s = .next t) : t.PcInv := by
  obtain ⟨k, down, rest, -, rfl⟩ | ⟨e, rest, -, he⟩ := step_next h
  · exact (hs.setHost rest).setKeydown k down
  · exact (hs.setHost rest).stepElapsed he

/-! ### Construction -/

/-- A core constructed with canonical memory meets the invariant (R35). -/
theorem constructed_inv {mem : Memory} (h : mem.wf) (pc : Word) (rand : List Byte) :
    (State.constructed mem pc rand).Inv where
  memory := h
  accNonneg := le_refl 0
  accBelowTick := by norm_num [State.constructed, Config.tick]
  depth := Nat.zero_le _
  exclusive := by simp [State.constructed]

/-- The ROM variant fills memory exactly (R145). -/
theorem romImage_length {rom : List Byte} {load : Nat} (h1 : 0x200 ≤ load) (h2 : load + rom.length ≤ 4096) :
    (romImage rom load).length = Config.memSize := by
  have hfont : Config.font.length = 80 := rfl
  have hsize : Config.memSize = 4096 := rfl
  simp only [romImage, List.length_append, List.length_replicate]
  omega

theorem constructImage_inv {image : List Byte} {start : Word} {rand : List Byte} {alt : Bool} {s : State}
    (h : constructImage image start rand alt = some s) : s.Inv := by
  obtain ⟨hwf, hs⟩ := Option.ite_none_right_eq_some.mp h
  obtain rfl := Option.some.inj hs
  exact constructed_inv (Memory.wf_ofBytes (wellFormedImage_iff.mp hwf).le) _ _

theorem constructRom_inv {rom : List Byte} {load : Word} {rand : List Byte} {alt : Bool} {s : State}
    (h : constructRom rom load rand alt = some s) : s.Inv := by
  obtain ⟨hwf, hs⟩ := Option.ite_none_right_eq_some.mp h
  obtain rfl := Option.some.inj hs
  obtain ⟨h1, h2⟩ := wellFormedRom_iff.mp hwf
  exact constructed_inv (Memory.wf_ofBytes (romImage_length h1 h2).le) _ _

end Sys2Proof.Machine
end

section
/-! PROOFS. The obligations of the family of 10_state.md, from the lemmas above. -/

namespace Sys2Proof.Machine

/-- Settles O47: each operation keeps the invariant, and a transition is one of them. -/
theorem everyStepKeepsTheInvariant : Obligations.EveryStepKeepsTheInvariant := fun _ _ hs h => hs.step h

/-- Settles O48: a fetch that succeeds leaves PC at most 0x1000, and from there no instruction leaves the bounds. -/
theorem everyStepKeepsThePcBounds : Obligations.EveryStepKeepsThePcBounds := fun _ _ hs h => hs.step h

/-- Settles O6: both variants construct canonical memories. -/
theorem everyConstructedCoreMeetsTheInvariant : Obligations.EveryConstructedCoreMeetsTheInvariant := by
  intro bytes a rand alt s h
  exact h.elim constructImage_inv constructRom_inv

/-- Settles O22: a step of a waiting core only keeps time, so it is `set_keydown` that clears the flag. -/
theorem waitEndsOnlyByQualifyingRelease : Obligations.WaitEndsOnlyByQualifyingRelease := by
  intro s t h hs ht
  obtain ⟨k, down, rest, hhost, rfl⟩ | ⟨e, rest, -, he⟩ := step_next h
  · obtain ⟨-, hk⟩ | ⟨key, rfl, ⟨-, hdown, rfl, hk⟩ | ⟨-, hk⟩⟩ := setKeydown_cases k down (s.setHost rest) <;>
      rw [hk] at ht ⊢
    · exact absurd (hs.symm.trans ht) (by decide)
    · refine ⟨key, rest, hhost, hdown, ?_⟩
      rw [State.readV_resolveWait, State.setKey_waitReg, State.setHost_waitReg, if_pos rfl, BitVec.toNat_ofNat]
      omega
    · exact absurd (hs.symm.trans ht) (by decide)
  · obtain ⟨-, -, ⟨-, rfl⟩ | ⟨hw, -⟩⟩ := stepElapsed_next he
    · exact absurd (hs.symm.trans ht) (by decide)
    · exact absurd (hs.symm.trans hw) (by decide)

/-- Settles O52: a step of a halted core is refused, and under the invariant `set_keydown` finds no wait to resolve. -/
theorem haltIsPermanent : Obligations.HaltIsPermanent := by
  intro s t hs h
  obtain ⟨k, down, rest, -, rfl⟩ | ⟨e, rest, -, he⟩ := step_next h
  · have hhost := unchangedBut_setHost s rest
    obtain ⟨-, hk⟩ | ⟨key, -, ⟨hw, -, -, hk⟩ | ⟨-, hk⟩⟩ := setKeydown_cases k down (s.setHost rest) <;> rw [hk]
    · exact ⟨rfl, fun _ => hhost.mono (by simp)⟩
    · exact ⟨rfl, fun hinv => absurd ⟨hw, hs⟩ hinv.exclusive⟩
    · exact ⟨rfl, fun _ => (hhost.append (unchangedBut_setKey _ key down)).mono (by simp)⟩
  · exact absurd (hs.symm.trans (stepElapsed_next he).1) (by decide)

/-- Settles O53: an instruction halts, which records the halt only, or its effect has its rule's frame. -/
theorem instructionsWriteOnlyTheirParts : Obligations.InstructionsWriteOnlyTheirParts := by
  intro i s t h
  obtain ⟨r, -, rfl⟩ | ⟨-, rfl⟩ := exec_next h
  · exact (haltsWith_halt r s).2.mono (by simp)
  · exact (unchangedBut_effect i s).mono fun _ hp => List.mem_cons_of_mem _ hp

/-- Settles O54: each of the four changes is hidden from the instructions its clause speaks of. -/
theorem instructionsDoNotReadHiddenState : Obligations.InstructionsDoNotReadHiddenState := by
  intro i s t h
  refine ⟨fun a => ?_, fun w hi => ?_, fun w hi => ?_, fun ks hi => ?_⟩
  · exact exec_changeHidden (c := { acc := fun _ => a }) ⟨.inl rfl, .inl rfl, .inl rfl⟩ h
  · exact exec_changeHidden (c := { st := fun _ => w }) ⟨.inr hi, .inl rfl, .inl rfl⟩ h
  · exact exec_changeHidden (c := { dt := fun _ => w }) ⟨.inl rfl, .inr hi, .inl rfl⟩ h
  · exact exec_changeHidden (c := { keys := fun _ => ks }) ⟨.inl rfl, .inl rfl, .inr hi⟩ h

/-- Settles O5: reset is a construction with canonical memory, PC at 0x200 and an empty stack. -/
theorem resetMeetsTheInvariants : Obligations.ResetMeetsTheInvariants :=
  ⟨constructed_inv Memory.wf_nil _ _, by decide, fun _ ha => absurd ha List.not_mem_nil⟩

/-- Settles O16: one clause for each shape of the host's list. -/
theorem stepPerformsTheNextHostOperation : Obligations.StepPerformsTheNextHostOperation := by
  intro s
  refine ⟨fun e rest => step_of_host_step, fun k down rest => step_of_host_setKeydown, fun h => ?_⟩
  have hs : s.setHost [] = s := by rw [← h]; rfl
  rw [step_of_host_nil h, hs]

end Sys2Proof.Machine
end

section
/-! SUPPORT. What the family of 20_memory.md rests on: the cells of a canonical memory are determined by its reads, what
memory holds after the stores of LD [I], and the two cases of a fetch. -/

namespace Sys2Proof.Machine

/-! ### Canonical memory and its reads -/

/-- Where addresses rise no earlier cell hides a later one: a listed cell is what its address reads as. -/
theorem Memory.read_eq_of_mem {m : Memory} (hm : m.Pairwise (fun p q => p.1 < q.1)) {p : Host.Cell} (hp : p ∈ m) :
    m.read p.1 = p.2 := by
  induction m with
  | nil => exact absurd hp List.not_mem_nil
  | cons q m ih =>
    obtain ⟨hq, hm⟩ := List.pairwise_cons.mp hm
    obtain rfl | hp := List.mem_cons.mp hp
    · exact if_pos rfl
    · exact (if_neg (hq p hp).ne).trans (ih hm hp)

/-- An address that does not read as construction left it is listed. -/
theorem Memory.mem_of_read_ne {m : Memory} {a : Nat} (h : m.read a ≠ initialByte a) : (a, m.read a) ∈ m := by
  induction m with
  | nil => exact absurd rfl h
  | cons q m ih =>
    obtain ⟨b, w⟩ := q
    rw [Memory.read_cons] at h ⊢
    by_cases hb : b = a
    · rw [if_pos hb, hb]
      exact List.mem_cons_self
    · rw [if_neg hb] at h ⊢
      exact List.mem_cons_of_mem _ (ih h)

/-- The cells of a canonical memory are the addresses that construction left otherwise, with what they read as. -/
theorem Memory.wf.mem_iff {m : Memory} (hm : m.wf) (p : Host.Cell) :
    p ∈ m ↔ m.read p.1 = p.2 ∧ p.2 ≠ initialByte p.1 := by
  obtain ⟨hrise, hcell⟩ := hm
  constructor
  · exact fun hp => ⟨Memory.read_eq_of_mem hrise hp, (hcell p hp).2⟩
  · rintro ⟨hread, hne⟩
    rw [← hread] at hne
    simpa only [hread] using Memory.mem_of_read_ne hne

/-- Canonical memories that read the same list the same cells, in the one order in which addresses rise. -/
theorem Memory.wf.ext {m n : Memory} (hm : m.wf) (hn : n.wf) (h : ∀ a, m.read a = n.read a) : m = n :=
  have : Std.Irrefl (fun p q : Host.Cell => p.1 < q.1) := ⟨fun p => lt_irrefl p.1⟩
  hm.1.eq_of_mem_iff hn.1 fun p => by rw [hm.mem_iff, hn.mem_iff, h]

/-! ### Storing registers (R106) -/

/-- LD [I], Vx whose last address exists completes with its effect. -/
theorem exec_store_of_le {s : State} {x : Reg} (h : s.i.toNat + x.val ≤ 0xFFF) :
    exec (.store x) s = .next (effect (.store x) s) :=
  have hsize : Config.memSize = 4096 := rfl
  withBytes_pos (by omega) _ _

/-- Storing registers moves I past the bytes stored. -/
theorem storeOne_range_i (s : State) (n : Nat) :
    ((List.range n).foldl storeOne s).i = s.i + BitVec.ofNat 16 n := by
  induction n with
  | zero => exact (BitVec.add_zero s.i).symm
  | succ n ih =>
    rw [List.range_succ, List.foldl_append, BitVec.ofNat_add, ← BitVec.add_assoc, ← ih]
    rfl

/-- Storing registers leaves the registers as they are. -/
theorem readV_storeOne_range (s : State) (n : Nat) (r : Reg) :
    ((List.range n).foldl storeOne s).readV r = s.readV r :=
  UnchangedBut.foldl unchangedBut_storeOne (List.range n) s .v (by decide) r

/-- Where I does not wrap, storing the first `n` registers puts `V[j]` at I + j for `j < n` and leaves every other
byte. -/
theorem readByte_storeOne_range {s : State} {n : Nat} (h : s.i.toNat + n ≤ 0x10000) (b : Nat) :
    ((List.range n).foldl storeOne s).readByte b =
      if s.i.toNat ≤ b ∧ b < s.i.toNat + n then s.readV (Fin.ofNat 16 (b - s.i.toNat)) else s.readByte b := by
  induction n with
  | zero => exact (if_neg (by omega)).symm
  | succ n ih =>
    have hi : ((List.range n).foldl storeOne s).i.toNat = s.i.toNat + n := by
      rw [storeOne_range_i, BitVec.toNat_add, BitVec.toNat_ofNat]
      omega
    rw [List.range_succ, List.foldl_append, List.foldl_cons, List.foldl_nil, storeOne, State.readByte_setI,
      State.readByte_writeByte, hi, readV_storeOne_range, ih (by omega)]
    by_cases hb : b = s.i.toNat + n
    · rw [if_pos hb, if_pos (by omega), hb, Nat.add_sub_cancel_left]
    · have hmem : (s.i.toNat ≤ b ∧ b < s.i.toNat + (n + 1)) ↔ (s.i.toNat ≤ b ∧ b < s.i.toNat + n) := by omega
      simp only [if_neg hb, hmem]

/-- LD [I], Vx inside memory leaves `V[j]` at I + j, for every register up to Vx. -/
theorem readByte_effect_store {s : State} {x j : Reg} (h : s.i.toNat + x.val ≤ 0xFFF) (hj : j.val ≤ x.val) :
    (effect (.store x) s).readByte (s.i.toNat + j.val) = s.readV j := by
  have hreg : Fin.ofNat 16 j.val = j := Fin.ext (Nat.mod_eq_of_lt j.isLt)
  rw [effect, readByte_storeOne_range (by omega), if_pos (by omega), Nat.add_sub_cancel_left, hreg]

/-! ### The fetch (R40) -/

/-- Bits 15 to 8 of a word are its first byte. -/
theorem getLsbD_wordOfBytes_high (hi lo : Byte) (j : Nat) : (wordOfBytes hi lo).getLsbD (8 + j) = hi.getLsbD j := by
  rw [wordOfBytes, BitVec.getLsbD_append, if_neg (by omega), Nat.add_sub_cancel_left]

/-- Bits 7 to 0 of a word are its second byte. -/
theorem getLsbD_wordOfBytes_low (hi lo : Byte) {j : Nat} (hj : j < 8) :
    (wordOfBytes hi lo).getLsbD j = lo.getLsbD j := by
  rw [wordOfBytes, BitVec.getLsbD_append, if_pos hj]

/-- Where PC + 1 is outside memory phase 4 halts. -/
theorem fetchExecute_of_outside {s : State} (h : Config.memSize ≤ s.pc.toNat + 1) :
    fetchExecute s = raiseHalt .memoryOutOfRange s := by
  rw [fetchExecute, State.fetch_eq_none.mpr h]

end Sys2Proof.Machine
end

section
/-! PROOFS. The obligations of the family of 20_memory.md, from the lemmas above. -/

namespace Sys2Proof.Machine

/-- Settles O7: reads determine the cells, and rising addresses their order. -/
theorem canonicalMemoriesWithEqualReadsAreEqual : Obligations.CanonicalMemoriesWithEqualReadsAreEqual :=
  fun _ _ hm hn h => hm.ext hn h

/-- Settles O9: V0 and V1 are stored at PC and PC + 1, and the store leaves PC. -/
theorem storedBytesAreFetchedNext : Obligations.StoredBytesAreFetchedNext := by
  intro s x hx hipc h
  have hpc : (effect (.store x) s).pc = s.i :=
    (unchangedBut_effect (.store x) s .pc (by simp [mayWrite])).trans hipc.symm
  have h0 : (effect (.store x) s).readByte s.i.toNat = s.readV 0 := readByte_effect_store (j := 0) h (Nat.zero_le _)
  have h1 : (effect (.store x) s).readByte (s.i.toNat + 1) = s.readV 1 := readByte_effect_store (j := 1) h hx
  refine ⟨_, exec_store_of_le h, State.fetch_eq_some.mpr ?_⟩
  have hsize : Config.memSize = 4096 := rfl
  rw [hpc, h0, h1]
  exact ⟨by omega, rfl⟩

/-- Settles O8: inside memory the word is the two bytes put together, outside it the fetch is the halt. -/
theorem fetchIsBigEndianOrHalts : Obligations.FetchIsBigEndianOrHalts := by
  intro s
  constructor
  · intro h
    refine ⟨_, State.fetch_eq_some.mpr ⟨h, rfl⟩, fun j hj => ?_⟩
    exact ⟨getLsbD_wordOfBytes_high _ _ j, getLsbD_wordOfBytes_low _ _ hj⟩
  · intro h
    rw [fetchExecute_of_outside h]
    exact raiseHalt_spec .memoryOutOfRange s

end Sys2Proof.Machine
end

section
/-! SUPPORT. What the family of 30_encoding.md rests on: no two rows of the opcode table select one word, so decoding is
the choice of the one row (R58); each row's words are the words of its instruction, bit for bit (R59, R60). -/

namespace Sys2Proof

/-! ### Selecting a row (R58) -/

/-- The table in the parts it is written in. -/
theorem forall_mem_opcodeTable {P : OpcodeRow → Prop} :
    (∀ r ∈ opcodeTable, P r) ↔
      (∀ r ∈ tableSystem, P r) ∧ (∀ r ∈ tableImmediate, P r) ∧ (∀ r ∈ tableRegister, P r) ∧
      (∀ r ∈ tableAddress, P r) ∧ ∀ r ∈ tableKeyTimer, P r := by
  simp only [opcodeTable, List.forall_mem_append, and_assoc]

theorem OpcodeRow.selects_iff {r : OpcodeRow} {w : Word} : r.selects w = true ↔ w &&& r.mask = r.pattern := beq_iff_eq

/-- A row that compares every bit selects its pattern only. -/
theorem selects_allOnes {m : String} {pattern w : Word} {f : Word → Instr} :
    (OpcodeRow.mk m 0xFFFF#16 pattern f).selects w = true ↔ w = pattern := by
  rw [OpcodeRow.selects_iff]
  exact Eq.congr_left BitVec.and_allOnes

/-- The patterns of two rows differ on a bit that both masks compare. -/
abbrev OpcodeRow.Apart (r q : OpcodeRow) : Prop := r.pattern &&& q.mask ≠ q.pattern &&& r.mask

theorem opcodeTable_pairwise_apart : opcodeTable.Pairwise OpcodeRow.Apart := by decide

/-- A word that two rows select has both patterns on the bits that both masks compare. -/
theorem OpcodeRow.not_apart_of_selects {r q : OpcodeRow} {w : Word} (hr : r.selects w = true)
    (hq : q.selects w = true) : ¬ r.Apart q := by
  rw [OpcodeRow.selects_iff] at hr hq
  rw [OpcodeRow.Apart, not_not, ← hr, ← hq, BitVec.and_assoc, BitVec.and_assoc, BitVec.and_comm r.mask]

/-- A word selects at most one row of the table. -/
theorem selected_row_unique {r q : OpcodeRow} {w : Word} (hr : r ∈ opcodeTable) (hq : q ∈ opcodeTable)
    (hrw : r.selects w = true) (hqw : q.selects w = true) : r = q :=
  have : Std.Symm OpcodeRow.Apart := ⟨fun _ _ h => h.symm⟩
  by_contra fun hne =>
    OpcodeRow.not_apart_of_selects hrw hqw (opcodeTable_pairwise_apart.forall hr hq hne)

/-- The row that the search answers selects the word. -/
theorem selects_of_find? {r : OpcodeRow} {w : Word} (h : opcodeTable.find? (fun q => q.selects w) = some r) :
    r.selects w = true := List.find?_some (p := fun q : OpcodeRow => q.selects w) h

/-- A word decodes to the instruction of the row it selects. -/
theorem decodeWord_eq_some_iff {w : Word} {i : Instr} :
    decodeWord w = some i ↔ ∃ r ∈ opcodeTable, r.selects w = true ∧ r.build w = i := by
  rw [decodeWord, Option.map_eq_some_iff]
  constructor
  · rintro ⟨r, hfind, hi⟩
    exact ⟨r, List.mem_of_find?_eq_some hfind, selects_of_find? hfind, hi⟩
  · rintro ⟨r, hr, hrw, hi⟩
    have hsome := List.find?_isSome (p := fun q : OpcodeRow => q.selects w).mpr ⟨r, hr, hrw⟩
    obtain ⟨q, hfind⟩ := Option.isSome_iff_exists.mp hsome
    have hqr : q = r := selected_row_unique (List.mem_of_find?_eq_some hfind) hr (selects_of_find? hfind) hrw
    exact ⟨q, hfind, hqr ▸ hi⟩

/-- A word decodes to nothing exactly where no row selects it. -/
theorem decodeWord_eq_none_iff {w : Word} : decodeWord w = none ↔ ∀ r ∈ opcodeTable, ¬ r.selects w = true := by
  rw [decodeWord, Option.map_eq_none_iff, List.find?_eq_none]

/-- Where the fetched word decodes to nothing the step halts after the PC advance (R58). -/
theorem Machine.fetchExecute_of_unrecognized {s : Machine.State} {w : Word} (hs : s.fetch = some w)
    (hw : decodeWord w = none) : Machine.fetchExecute s = Machine.raiseHalt .unrecognizedInstruction s.advancePc := by
  simp only [Machine.fetchExecute, hs, hw]

/-! ### Bytes (R40, R64) -/

/-- Decoding bytes is decoding the word of the first two and keeping the rest. -/
theorem decode_eq_ok_iff {bytes rest : List Byte} {i : Instr} :
    decode bytes = .ok (i, rest) ↔
      ∃ hi lo, bytes = hi :: lo :: rest ∧ decodeWord (wordOfBytes hi lo) = some i := by
  constructor
  · intro h
    match bytes with
    | [] | [_] => cases h
    | hi :: lo :: tail =>
      rw [decode] at h
      cases hw : decodeWord (wordOfBytes hi lo) with
      | none => simp [hw] at h
      | some j =>
        obtain ⟨rfl, rfl⟩ : j = i ∧ tail = rest := by simpa [hw] using h
        exact ⟨hi, lo, rfl, hw⟩
  · rintro ⟨hi, lo, rfl, hw⟩
    rw [decode, hw]

@[simp] theorem highByte_wordOfBytes (hi lo : Byte) : highByte (wordOfBytes hi lo) = hi :=
  BitVec.extractLsb'_append_eq_left

@[simp] theorem lowByte_wordOfBytes (hi lo : Byte) : lowByte (wordOfBytes hi lo) = lo :=
  BitVec.extractLsb'_append_eq_right

/-! ### Decoding an encoded instruction -/

/-- Each instruction's word selects its row (the model's laws per instruction, put together). -/
theorem matchesRow (i : Instr) : Laws.MatchesRow.Statement i := by
  cases i with
  | cls => exact Laws.MatchesRow.cls
  | ret => exact Laws.MatchesRow.ret
  | jp addr => exact Laws.MatchesRow.jp addr
  | call addr => exact Laws.MatchesRow.call addr
  | seK x k => exact Laws.MatchesRow.seK x k
  | sneK x k => exact Laws.MatchesRow.sneK x k
  | seV x y => exact Laws.MatchesRow.seV x y
  | ldK x k => exact Laws.MatchesRow.ldK x k
  | addK x k => exact Laws.MatchesRow.addK x k
  | ldV x y => exact Laws.MatchesRow.ldV x y
  | orV x y => exact Laws.MatchesRow.orV x y
  | andV x y => exact Laws.MatchesRow.andV x y
  | xorV x y => exact Laws.MatchesRow.xorV x y
  | addV x y => exact Laws.MatchesRow.addV x y
  | subV x y => exact Laws.MatchesRow.subV x y
  | shrV x y => exact Laws.MatchesRow.shrV x y
  | subnV x y => exact Laws.MatchesRow.subnV x y
  | shlV x y => exact Laws.MatchesRow.shlV x y
  | sneV x y => exact Laws.MatchesRow.sneV x y
  | ldI addr => exact Laws.MatchesRow.ldI addr
  | jpV0 addr => exact Laws.MatchesRow.jpV0 addr
  | rnd x k => exact Laws.MatchesRow.rnd x k
  | drw x y n => exact Laws.MatchesRow.drw x y n
  | skp x => exact Laws.MatchesRow.skp x
  | sknp x => exact Laws.MatchesRow.sknp x
  | ldVDt x => exact Laws.MatchesRow.ldVDt x
  | ldVKey x => exact Laws.MatchesRow.ldVKey x
  | ldDtV x => exact Laws.MatchesRow.ldDtV x
  | ldStV x => exact Laws.MatchesRow.ldStV x
  | addI x => exact Laws.MatchesRow.addI x
  | ldF x => exact Laws.MatchesRow.ldF x
  | ldB x => exact Laws.MatchesRow.ldB x
  | store x => exact Laws.MatchesRow.store x
  | load x => exact Laws.MatchesRow.load x

theorem decodeWord_encode (i : Instr) : decodeWord (encode i) = some i :=
  decodeWord_eq_some_iff.mpr (matchesRow i)

theorem decode_encodeBytes_append (i : Instr) (rest : List Byte) : decode (encodeBytes i ++ rest) = .ok (i, rest) := by
  refine decode_eq_ok_iff.mpr ⟨highByte (encode i), lowByte (encode i), rfl, ?_⟩
  rw [Machine.wordOfBytes_halves, decodeWord_encode]

/-! ### Encoding a decoded word -/

/-- The words a row selects are the words of its instruction: its mask compares every bit that is no operand's (R60). -/
def OpcodeRow.EncodesBack (r : OpcodeRow) : Prop := ∀ w, r.selects w = true → encode (r.build w) = w

/-- It is enough to look at words as nibbles. -/
theorem OpcodeRow.EncodesBack.of_nib {r : OpcodeRow}
    (h : ∀ a b c d, r.selects (nib a b c d) = true → encode (r.build (nib a b c d)) = nib a b c d) :
    r.EncodesBack := by
  intro w
  rw [eq_nib w]
  exact h _ _ _ _

theorem wordXK_append (op b c d : BitVec 4) : wordXK op (nibbleOfBits b) (c ++ d) = nib op b c d :=
  BitVec.append_assoc'

theorem wordAddr_append (op b c d : BitVec 4) : wordAddr op (b ++ c ++ d) = nib op b c d := by
  have h : op ++ (b ++ c ++ d) = op ++ (b ++ c) ++ d := BitVec.append_assoc'
  have h' : op ++ (b ++ c) = op ++ b ++ c := BitVec.append_assoc'
  rw [wordAddr, h, h', nib]

variable {m : String} {op : BitVec 4}

/-- Rows of the form `op addr`. -/
theorem encodesBack_addr {f : BitVec 12 → Instr} (h : ∀ addr, encode (f addr) = wordAddr op addr) :
    (OpcodeRow.mk m 0xF000#16 (nib op 0#4 0#4 0#4) fun w => f (fieldAddr w)).EncodesBack := by
  refine .of_nib fun a b c d hsel => ?_
  rw [selects_F000, beq_iff_eq] at hsel
  rw [h, fieldAddr_nib, wordAddr_append, hsel]

/-- Rows of the form `op x k`. -/
theorem encodesBack_xk {f : Reg → Byte → Instr} (h : ∀ x k, encode (f x k) = wordXK op x k) :
    (OpcodeRow.mk m 0xF000#16 (nib op 0#4 0#4 0#4) fun w => f (fieldX w) (fieldK w)).EncodesBack := by
  refine .of_nib fun a b c d hsel => ?_
  rw [selects_F000, beq_iff_eq] at hsel
  rw [h, fieldX_nib, fieldK_nib, wordXK_append, hsel]

/-- Rows of the form `op x y n`. -/
theorem encodesBack_xyn {f : Reg → Reg → Fin 16 → Instr}
    (h : ∀ x y n, encode (f x y n) = wordXYN op x y (bitsOfNibble n)) :
    (OpcodeRow.mk m 0xF000#16 (nib op 0#4 0#4 0#4) fun w => f (fieldX w) (fieldY w) (fieldN w)).EncodesBack := by
  refine .of_nib fun a b c d hsel => ?_
  rw [selects_F000, beq_iff_eq] at hsel
  simp only [h, fieldX_nib, fieldY_nib, fieldN_nib, wordXYN_nib, bitsOfNibble_nibbleOfBits, hsel]

/-- Rows of the form `op x y` with a fixed last nibble. -/
theorem encodesBack_xy {n : BitVec 4} {f : Reg → Reg → Instr} (h : ∀ x y, encode (f x y) = wordXYN op x y n) :
    (OpcodeRow.mk m 0xF00F#16 (nib op 0#4 0#4 n) fun w => f (fieldX w) (fieldY w)).EncodesBack := by
  refine .of_nib fun a b c d hsel => ?_
  rw [selects_F00F, Bool.and_eq_true, beq_iff_eq, beq_iff_eq] at hsel
  simp only [h, fieldX_nib, fieldY_nib, wordXYN_nib, bitsOfNibble_nibbleOfBits, hsel]

/-- Rows of the form `op x` with a fixed low byte. -/
theorem encodesBack_x {p q : BitVec 4} {f : Reg → Instr} (h : ∀ x, encode (f x) = wordXK op x (p ++ q)) :
    (OpcodeRow.mk m 0xF0FF#16 (nib op 0#4 p q) fun w => f (fieldX w)).EncodesBack := by
  refine .of_nib fun a b c d hsel => ?_
  simp only [selects_F0FF, Bool.and_eq_true, beq_iff_eq] at hsel
  simp only [h, fieldX_nib, wordXK_append, hsel]

/-- Rows without operands. -/
theorem encodesBack_fixed {pattern : Word} {i : Instr} (h : encode i = pattern) :
    (OpcodeRow.mk m 0xFFFF#16 pattern fun _ => i).EncodesBack := by
  intro w hsel
  exact h.trans (selects_allOnes.mp hsel).symm

theorem tableSystem_encodesBack : ∀ r ∈ tableSystem, r.EncodesBack := by
  simp only [tableSystem_nib, List.forall_mem_cons]
  exact ⟨encodesBack_fixed rfl, encodesBack_fixed rfl, encodesBack_addr fun _ => rfl, encodesBack_addr fun _ => rfl,
    List.forall_mem_nil _⟩

theorem tableImmediate_encodesBack : ∀ r ∈ tableImmediate, r.EncodesBack := by
  simp only [tableImmediate_nib, List.forall_mem_cons]
  exact ⟨encodesBack_xk fun _ _ => rfl, encodesBack_xk fun _ _ => rfl, encodesBack_xy fun _ _ => rfl,
    encodesBack_xk fun _ _ => rfl, encodesBack_xk fun _ _ => rfl, List.forall_mem_nil _⟩

theorem tableRegister_encodesBack : ∀ r ∈ tableRegister, r.EncodesBack := by
  simp only [tableRegister_nib, List.forall_mem_cons]
  exact ⟨encodesBack_xy fun _ _ => rfl, encodesBack_xy fun _ _ => rfl, encodesBack_xy fun _ _ => rfl,
    encodesBack_xy fun _ _ => rfl, encodesBack_xy fun _ _ => rfl, encodesBack_xy fun _ _ => rfl,
    encodesBack_xy fun _ _ => rfl, encodesBack_xy fun _ _ => rfl, encodesBack_xy fun _ _ => rfl,
    encodesBack_xy fun _ _ => rfl, List.forall_mem_nil _⟩

theorem tableAddress_encodesBack : ∀ r ∈ tableAddress, r.EncodesBack := by
  simp only [tableAddress_nib, List.forall_mem_cons]
  exact ⟨encodesBack_addr fun _ => rfl, encodesBack_addr fun _ => rfl, encodesBack_xk fun _ _ => rfl,
    encodesBack_xyn fun _ _ _ => rfl, List.forall_mem_nil _⟩

theorem tableKeyTimer_encodesBack : ∀ r ∈ tableKeyTimer, r.EncodesBack := by
  simp only [tableKeyTimer_nib, List.forall_mem_cons]
  refine ⟨?_, ?_, ?_, ?_, ?_, ?_, ?_, ?_, ?_, ?_, ?_, List.forall_mem_nil _⟩ <;> exact encodesBack_x fun _ => rfl

theorem opcodeTable_encodesBack : ∀ r ∈ opcodeTable, r.EncodesBack :=
  forall_mem_opcodeTable.mpr ⟨tableSystem_encodesBack, tableImmediate_encodesBack, tableRegister_encodesBack,
    tableAddress_encodesBack, tableKeyTimer_encodesBack⟩

theorem encode_of_decodeWord {w : Word} {i : Instr} (h : decodeWord w = some i) : encode i = w := by
  obtain ⟨r, hr, hsel, rfl⟩ := decodeWord_eq_some_iff.mp h
  exact opcodeTable_encodesBack r hr w hsel

theorem encodeBytes_of_decodeWord {hi lo : Byte} {i : Instr} (h : decodeWord (wordOfBytes hi lo) = some i) :
    encodeBytes i = [hi, lo] := by
  rw [encodeBytes, encode_of_decodeWord h, highByte_wordOfBytes, lowByte_wordOfBytes]

/-! ### Unrecognized words (R61) -/

theorem toNat_nib (a b c d : BitVec 4) :
    (nib a b c d).toNat = 4096 * a.toNat + 256 * b.toNat + 16 * c.toNat + d.toNat := by
  simp only [nib, BitVec.toNat_append]
  rw [← Nat.shiftLeft_add_eq_or_of_lt d.isLt, ← Nat.shiftLeft_add_eq_or_of_lt c.isLt,
    ← Nat.shiftLeft_add_eq_or_of_lt b.isLt]
  simp only [Nat.shiftLeft_eq]
  omega

/-- Mask 0xF000 in numbers. -/
theorem selects_F000_iff {f : Word → Instr} {w : Word} :
    (OpcodeRow.mk m 0xF000#16 (nib op 0#4 0#4 0#4) f).selects w = true ↔ w.toNat / 4096 = op.toNat := by
  rw [eq_nib w, selects_F000, beq_iff_eq, toNat_nib, BitVec.toNat_eq]
  omega

/-- Mask 0xF00F in numbers. -/
theorem selects_F00F_iff {n : BitVec 4} {f : Word → Instr} {w : Word} :
    (OpcodeRow.mk m 0xF00F#16 (nib op 0#4 0#4 n) f).selects w = true ↔
      w.toNat / 4096 = op.toNat ∧ w.toNat % 16 = n.toNat := by
  rw [eq_nib w, selects_F00F, toNat_nib]
  simp only [Bool.and_eq_true, beq_iff_eq, BitVec.toNat_eq]
  omega

/-- Mask 0xF0FF in numbers. -/
theorem selects_F0FF_iff {p q : BitVec 4} {f : Word → Instr} {w : Word} :
    (OpcodeRow.mk m 0xF0FF#16 (nib op 0#4 p q) f).selects w = true ↔
      w.toNat / 4096 = op.toNat ∧ w.toNat % 256 = 16 * p.toNat + q.toNat := by
  rw [eq_nib w, selects_F0FF, toNat_nib]
  simp only [Bool.and_eq_true, beq_iff_eq, BitVec.toNat_eq]
  omega

/-- Rows 1 to 4 select CLS, RET and the words of the opcodes 1 and 2. -/
theorem tableSystem_selects_none_iff (w : Word) : (∀ r ∈ tableSystem, ¬ r.selects w = true) ↔
    w ≠ 0x00E0#16 ∧ w ≠ 0x00EE#16 ∧ w.toNat / 4096 ∉ [0x1, 0x2] := by
  have hcls : nib 0x0#4 0x0#4 0xE#4 0x0#4 = 0x00E0#16 := by decide
  have hret : nib 0x0#4 0x0#4 0xE#4 0xE#4 = 0x00EE#16 := by decide
  simp only [tableSystem_nib, List.forall_mem_cons, selects_allOnes, selects_F000_iff, hcls, hret]
  simp

/-- Rows 5 to 9 select the words of the opcodes 3, 4, 6 and 7, and 5xy0. -/
theorem tableImmediate_selects_none_iff (w : Word) : (∀ r ∈ tableImmediate, ¬ r.selects w = true) ↔
    w.toNat / 4096 ∉ [0x3, 0x4] ∧ ¬ (w.toNat / 4096 = 0x5 ∧ w.toNat % 16 = 0) ∧ w.toNat / 4096 ∉ [0x6, 0x7] := by
  simp only [tableImmediate_nib, List.forall_mem_cons, selects_F000_iff, selects_F00F_iff]
  simp [and_assoc]

/-- Rows 10 to 19 select the nine forms 8xyN and 9xy0. -/
theorem tableRegister_selects_none_iff (w : Word) : (∀ r ∈ tableRegister, ¬ r.selects w = true) ↔
    ¬ (w.toNat / 4096 = 0x8 ∧ w.toNat % 16 ∈ [0x0, 0x1, 0x2, 0x3, 0x4, 0x5, 0x6, 0x7, 0xE]) ∧
    ¬ (w.toNat / 4096 = 0x9 ∧ w.toNat % 16 = 0) := by
  simp only [tableRegister_nib, List.forall_mem_cons, selects_F00F_iff]
  simp [imp_and, and_assoc]

/-- Rows 20 to 23 select the words of the opcodes A to D. -/
theorem tableAddress_selects_none_iff (w : Word) : (∀ r ∈ tableAddress, ¬ r.selects w = true) ↔
    w.toNat / 4096 ∉ [0xA, 0xB, 0xC, 0xD] := by
  simp only [tableAddress_nib, List.forall_mem_cons, selects_F000_iff]
  simp

/-- Rows 24 to 34 select the two forms ExKK and the nine forms FxKK. -/
theorem tableKeyTimer_selects_none_iff (w : Word) : (∀ r ∈ tableKeyTimer, ¬ r.selects w = true) ↔
    ¬ (w.toNat / 4096 = 0xE ∧ w.toNat % 256 ∈ [0x9E, 0xA1]) ∧
    ¬ (w.toNat / 4096 = 0xF ∧ w.toNat % 256 ∈ [0x07, 0x0A, 0x15, 0x18, 0x1E, 0x29, 0x33, 0x55, 0x65]) := by
  simp only [tableKeyTimer_nib, List.forall_mem_cons, selects_F0FF_iff]
  simp [imp_and, and_assoc]

end Sys2Proof
end

section
/-! PROOFS. The obligations of the family of 30_encoding.md, from the lemmas above. -/

namespace Sys2Proof

/-- Settles O10: any two rows are apart, so the search answers the selected row, or there is none and the step halts. -/
theorem decodeSelectsTheOneMatchingRow : Obligations.DecodeSelectsTheOneMatchingRow := by
  intro w
  refine ⟨fun r hr q hq => selected_row_unique hr hq, fun r hr hw => ?_, fun hnone s hs => ?_⟩
  · exact decodeWord_eq_some_iff.mpr ⟨r, hr, OpcodeRow.selects_iff.mpr hw, rfl⟩
  · have hdec : decodeWord w = none :=
      decodeWord_eq_none_iff.mpr fun r hr hsel => hnone r hr (OpcodeRow.selects_iff.mp hsel)
    rw [Machine.fetchExecute_of_unrecognized hs hdec]
    exact Machine.raiseHalt_spec .unrecognizedInstruction s.advancePc

/-- Settles O11: the row of each instruction selects its word, and no other row does. -/
theorem decodeOfEncodeIsIdentity : Obligations.DecodeOfEncodeIsIdentity :=
  fun i rest _ => ⟨decodeWord_encode i, decode_encodeBytes_append i rest⟩

/-- Settles O12: each row's mask and operands cover all sixteen bits. -/
theorem encodeOfDecodeIsIdentity : Obligations.EncodeOfDecodeIsIdentity := by
  intro bytes i rest h
  obtain ⟨hi, lo, rfl, hw⟩ := decode_eq_ok_iff.mp h
  rw [encodeBytes_of_decodeWord hw]
  rfl

/-- Settles O13: in numbers no row selects the word, taken apart by the first nibble. -/
theorem unrecognizedWordsAreThoseListed : Obligations.UnrecognizedWordsAreThoseListed := by
  intro w
  rw [decodeWord_eq_none_iff, forall_mem_opcodeTable, tableSystem_selects_none_iff, tableImmediate_selects_none_iff,
    tableRegister_selects_none_iff, tableAddress_selects_none_iff, tableKeyTimer_selects_none_iff]
  simp only [ne_eq, BitVec.toNat_eq, BitVec.toNat_ofNat, List.mem_cons, List.not_mem_nil, or_false]
  have hop : w.toNat / 4096 < 16 := by omega
  -- One case per first nibble: only the rows of that opcode are left to compare.
  interval_cases h : w.toNat / 4096 <;> simp <;> omega

/-- Settles O14: a computation on fourteen fixed words. -/
theorem vectorWordsDecode : Obligations.VectorWordsDecode := by
  unfold Obligations.VectorWordsDecode
  decide

end Sys2Proof
end

section
/-! SUPPORT. What the family of 40_step_cycle.md rests on: a closed form of the tick loop, what a legal `step(elapsed)` is
equal to, what a halting one leaves, and where `withFetchWord` puts its word. -/

namespace Sys2Proof.Machine

/-! ### The tick loop (R70 to R72) -/

theorem takeTicks_of_lt {c : Clock} (h : c.acc < Config.tick) (n : Nat) : takeTicks n c = c := by
  cases n with
  | zero => rfl
  | succ n => rw [takeTicks_succ, if_neg (not_le.mpr h)]

/-- One tick is 1/60 second, so the loop takes `⌊60 acc⌋` ticks (R72). -/
theorem tickBound_eq (a : Rat) : tickBound a = ⌊60 * a⌋.toNat := by
  have h : a / Config.tick = 60 * a := by rw [Config.tick]; ring
  rw [tickBound, h]
  rfl

theorem tickBound_mono {a b : Rat} (h : a ≤ b) : tickBound a ≤ tickBound b := by
  rw [tickBound_eq, tickBound_eq]
  exact Int.toNat_le_toNat (Int.floor_mono (by linarith))

/-- Ticks that are taken away are ticks fewer to take. -/
theorem tickBound_sub (a : Rat) (n : Nat) : tickBound (a - n * Config.tick) = tickBound a - n := by
  have h : 60 * (a - n * Config.tick) = 60 * a - n := by rw [Config.tick]; ring
  rw [tickBound_eq, tickBound_eq, h, Int.floor_sub_natCast]
  omega

theorem natCast_tickBound {a : Rat} (h : 0 ≤ a) : ((tickBound a : Nat) : Rat) = (⌊60 * a⌋ : Rat) := by
  have hf : (0 : Int) ≤ ⌊60 * a⌋ := Int.floor_nonneg.mpr (by positivity)
  rw [tickBound_eq, ← Int.cast_natCast, Int.toNat_of_nonneg hf]

/-- The accumulator holds the ticks that the loop takes. -/
theorem tickBound_mul_tick_le {a : Rat} (h : 0 ≤ a) : tickBound a * Config.tick ≤ a := by
  have hf : (⌊60 * a⌋ : Rat) ≤ 60 * a := Int.floor_le _
  rw [natCast_tickBound h, Config.tick]
  linarith

theorem tickBound_pos {a : Rat} (h : Config.tick ≤ a) : 0 < tickBound a := by
  have h1 : (1 : Rat) ≤ 60 * a := by rw [Config.tick] at h; linarith
  have hf : (1 : Int) ≤ ⌊60 * a⌋ := Int.le_floor.mpr (by exact_mod_cast h1)
  rw [tickBound_eq]
  omega

/-- A clock after `n` ticks. -/
def Clock.tickTimes (c : Clock) (n : Nat) : Clock := ⟨satdec^[n] c.dt, satdec^[n] c.st, c.acc - n * Config.tick⟩

/-- `n` ticks decrement a timer by `n`, saturating (R71). -/
theorem satdec_iterate_toNat (n : Nat) (t : Byte) : (satdec^[n] t).toNat = t.toNat - n := by
  induction n generalizing t with
  | zero => rfl
  | succ n ih => rw [Function.iterate_succ_apply, ih, satdec_toNat]; omega

theorem Clock.tickTimes_tickTimes (c : Clock) (m n : Nat) : (c.tickTimes m).tickTimes n = c.tickTimes (n + m) := by
  have hacc : c.acc - m * Config.tick - n * Config.tick = c.acc - ((n + m : Nat) : Rat) * Config.tick := by
    push_cast; ring
  simp only [Clock.tickTimes, Function.iterate_add_apply, hacc]

/-- The loop takes all its ticks where the accumulator holds them. -/
theorem takeTicks_eq_tickTimes {n : Nat} {c : Clock} (h : n * Config.tick ≤ c.acc) : takeTicks n c = c.tickTimes n := by
  induction n generalizing c with
  | zero => simp [Clock.tickTimes]
  | succ n ih =>
    have htick : (0 : Rat) < Config.tick := by norm_num [Config.tick]
    have hn : (0 : Rat) ≤ n * Config.tick := by positivity
    push_cast at h
    rw [takeTicks_succ, if_pos (by linarith), ih (by show _ ≤ c.acc - Config.tick; linarith)]
    have hone : (⟨satdec c.dt, satdec c.st, c.acc - Config.tick⟩ : Clock) = c.tickTimes 1 := by simp [Clock.tickTimes]
    rw [hone, Clock.tickTimes_tickTimes]

/-- The closed form of phases 1 and 2 (R72). -/
theorem Clock.elapse_eq_tickTimes {c : Clock} {e : Rat} (h : 0 ≤ c.acc + e) :
    c.elapse e = Clock.tickTimes { c with acc := c.acc + e } (tickBound (c.acc + e)) :=
  takeTicks_eq_tickTimes (tickBound_mul_tick_le h)

/-- Time that elapses on a clock is its tick loop with the time added to the accumulator (R69). -/
theorem Clock.elapse_eq_elapse_zero (c : Clock) (e : Rat) : c.elapse e = Clock.elapse { c with acc := c.acc + e } 0 := by
  simp only [Clock.elapse, add_zero]

theorem Clock.elapse_zero_of_lt {c : Clock} (h : c.acc < Config.tick) : c.elapse 0 = c := by
  simp only [Clock.elapse, add_zero]
  exact takeTicks_of_lt h _

/-- A round of the loop: one tick, and the loop again. -/
theorem Clock.elapse_zero_of_le {c : Clock} (h : Config.tick ≤ c.acc) :
    c.elapse 0 = Clock.elapse ⟨satdec c.dt, satdec c.st, c.acc - Config.tick⟩ 0 := by
  have hfewer : tickBound (c.acc - Config.tick) = tickBound c.acc - 1 := by simpa using tickBound_sub c.acc 1
  have hfuel : tickBound c.acc = tickBound (c.acc - Config.tick) + 1 := by
    have := tickBound_pos h
    omega
  simp only [Clock.elapse, add_zero]
  rw [hfuel, takeTicks_succ, if_pos h]

/-- The loop leaves less than a tick of a time that is not negative in all, whatever the signs of its parts (R72). -/
theorem Clock.elapse_acc_range_of_add {c : Clock} {e : Rat} (h : 0 ≤ c.acc + e) :
    0 ≤ (c.elapse e).acc ∧ (c.elapse e).acc < Config.tick :=
  takeTicks_acc_range _ _ h (lt_tickBound_succ_mul_tick h)

/-- Ticks taken between two elapsed times are ticks taken after both: R72 does not depend on the split. -/
theorem Clock.elapse_elapse {c : Clock} {e f : Rat} (h : 0 ≤ c.acc + e) (hf : 0 ≤ f) :
    (c.elapse e).elapse f = c.elapse (e + f) := by
  have hacc : (c.elapse e).acc + f = c.acc + (e + f) - tickBound (c.acc + e) * Config.tick := by
    rw [Clock.elapse_eq_tickTimes h, Clock.tickTimes]
    ring
  have hticks : tickBound ((c.elapse e).acc + f) + tickBound (c.acc + e) = tickBound (c.acc + (e + f)) := by
    rw [hacc, tickBound_sub]
    exact Nat.sub_add_cancel (tickBound_mono (by linarith))
  have hnonneg : 0 ≤ (c.elapse e).acc + f := add_nonneg (Clock.elapse_acc_range_of_add h).1 hf
  have hsum : 0 ≤ c.acc + (e + f) := by linarith
  have hclock : ({ c.elapse e with acc := (c.elapse e).acc + f } : Clock) =
      Clock.tickTimes { c with acc := c.acc + (e + f) } (tickBound (c.acc + e)) := by
    rw [hacc, Clock.elapse_eq_tickTimes h]
    rfl
  rw [Clock.elapse_eq_tickTimes hnonneg, Clock.elapse_eq_tickTimes hsum, hclock, Clock.tickTimes_tickTimes, hticks]

@[simp] theorem State.clock_elapse (s : State) (e : Rat) : (s.elapse e).clock = s.clock.elapse e := rfl

/-! ### A legal step (R68, R69, R73 to R75) -/

theorem State.continues_of_halt_none {s : State} (h : s.halt = none) : s.continues = true := by
  simp [State.continues, State.halted, h]

theorem State.continues_of_halt_some {s : State} {r : HaltReason} (h : s.halt = some r) : s.continues = false := by
  simp [State.continues, State.halted, h]

theorem stepElapsed_of_halted {s : State} (h : s.halted = true) (e : Rat) :
    stepElapsed e s = .refused .stepAfterHalt := if_pos h

theorem stepElapsed_of_neg {s : State} {e : Rat} (h : s.halted = false) (he : e < 0) :
    stepElapsed e s = .refused .negativeElapsed := by
  have hill : ¬ wellFormedElapsed e = true := wellFormedElapsed_iff.not.mpr (not_le.mpr he)
  rw [stepElapsed, if_neg (by simp [h]), if_neg hill]

/-- A legal step lets the time elapse, then ends where a key is waited for and fetches and executes elsewhere. -/
theorem stepElapsed_of_legal {s : State} {e : Rat} (h : s.halted = false) (he : 0 ≤ e) :
    stepElapsed e s = if s.waiting then .next (s.elapse e) else fetchExecute (s.elapse e) := by
  rw [stepElapsed, if_neg (by simp [h]), if_pos (wellFormedElapsed_iff.mpr he)]

/-- Every instruction answers a next state. -/
theorem exec_total (i : Instr) (s : State) : ∃ t, exec i s = .next t := by
  by_cases h : ∃ r, haltCondition s r i
  · obtain ⟨r, hr⟩ := h
    exact ⟨_, exec_of_haltCondition hr⟩
  · exact ⟨_, exec_of_not_haltCondition (not_exists.mp h)⟩

theorem fetchExecute_of_decoded {s : State} {w : Word} {i : Instr} (hf : s.fetch = some w) (hd : decodeWord w = some i) :
    fetchExecute s = exec i s.advancePc := by
  simp only [fetchExecute, hf, hd]

theorem fetchExecute_total (s : State) : ∃ t, fetchExecute s = .next t := by
  cases hf : s.fetch with
  | none => exact ⟨_, fetchExecute_of_outside (State.fetch_eq_none.mp hf)⟩
  | some w =>
    cases hd : decodeWord w with
    | none => exact ⟨_, fetchExecute_of_unrecognized hf hd⟩
    | some i => rw [fetchExecute_of_decoded hf hd]; exact exec_total i _

/-- A transition of a running core whose next operation is a legal step and whose fetched word decodes. -/
theorem step_of_decoded {s : State} {e : Rat} {rest : List HostOp} {w : Word} {i : Instr} (hs : s.Running) (he : 0 ≤ e)
    (hop : nextHostOp s = (.step e, rest)) (hf : s.fetch = some w) (hd : decodeWord w = some i) :
    step s = exec i (((s.setHost rest).elapse e).setPc (s.pc + 2)) := by
  obtain ⟨hw, hh⟩ := hs
  have hfetch : ((s.setHost rest).elapse e).fetch = some w := hf
  calc step s = stepElapsed e (s.setHost rest) := by simp only [step, performNext, hop, hostOperation]
    _ = fetchExecute ((s.setHost rest).elapse e) := by
      rw [stepElapsed_of_legal (s := s.setHost rest) hh he, State.setHost_waiting, hw]
      rfl
    _ = exec i ((s.setHost rest).elapse e).advancePc := fetchExecute_of_decoded hfetch hd

/-! ### A halting step (R76) -/

/-- An instruction that halts records the halt in the state before it. -/
theorem exec_halted {i : Instr} {s t : State} {r : HaltReason} (hs : s.halt = none) (h : exec i s = .next t)
    (hr : t.halt = some r) : t = s.setHalt r := by
  obtain ⟨q, -, rfl⟩ | ⟨-, rfl⟩ := exec_next h
  · rw [Option.some.inj hr]
  · rw [effect_halt, hs] at hr
    cases hr

/-- A halt of the fetch leaves PC, every other halt leaves it past the fetched word. -/
theorem fetchExecute_halted {s t : State} {r : HaltReason} (hs : s.halt = none) (h : fetchExecute s = .next t)
    (hr : t.halt = some r) :
    (Config.memSize ≤ s.pc.toNat + 1 ∧ r = .memoryOutOfRange ∧ t = s.setHalt r) ∨
    (s.pc.toNat + 1 < Config.memSize ∧ t = s.advancePc.setHalt r) := by
  obtain ⟨hpc, rfl⟩ | ⟨w, hf, -, rfl⟩ | ⟨w, i, hf, -, hi⟩ := fetchExecute_next h
  · obtain rfl := Option.some.inj hr
    exact .inl ⟨hpc, rfl, rfl⟩
  · obtain rfl := Option.some.inj hr
    exact .inr ⟨(State.fetch_eq_some.mp hf).1, rfl⟩
  · exact .inr ⟨(State.fetch_eq_some.mp hf).1, exec_halted hs hi hr⟩

/-- A step that halts has fetched: a waiting core only keeps time. -/
theorem stepElapsed_halted {s t : State} {e : Rat} {r : HaltReason} (h : stepElapsed e s = .next t)
    (hr : t.halt = some r) : (s.elapse e).halt = none ∧ fetchExecute (s.elapse e) = .next t := by
  obtain ⟨hh, -, hwait⟩ := stepElapsed_next h
  have hs : (s.elapse e).halt = none := s.halted_eq_false_iff.mp hh
  obtain ⟨-, rfl⟩ | ⟨-, hf⟩ := hwait
  · rw [hs] at hr
    cases hr
  · exact ⟨hs, hf⟩

/-! ### The model's program load (log entry 3) -/

theorem decodeWord_of_decodeTableWord {nbits w : Nat} {i : Instr} (h : decodeTableWord nbits w = some i) :
    decodeWord (BitVec.ofNat 16 (w % 2 ^ nbits)) = some i := by
  simp only [decodeTableWord, decode, wordOfBytes_halves] at h
  cases hd : decodeWord (BitVec.ofNat 16 (w % 2 ^ nbits)) with
  | none => simp [hd] at h
  | some j => simpa [hd] using h

theorem fetchPlace_succ_lt (s : State) : (fetchPlace s).toNat + 1 < Config.memSize := by
  unfold fetchPlace
  split
  · assumption
  · decide

/-- The loaded word is the one that the next fetch reads. -/
theorem fetch_withFetchWord (s : State) (nbits w : Nat) :
    (s.withFetchWord nbits w).fetch = some (BitVec.ofNat 16 (w % 2 ^ nbits)) := by
  refine State.fetch_eq_some.mpr ⟨fetchPlace_succ_lt s, ?_⟩
  simp [State.withFetchWord, State.readByte, Memory.read_write]

theorem withFetchWord_running (s : State) (nbits w : Nat) : (s.withFetchWord nbits w).Running := ⟨rfl, rfl⟩

theorem runsStep_iff {op : HostOp} : runsStep op = true ↔ ∃ e, op = .step e ∧ 0 ≤ e := by
  cases op with
  | step e => simp [runsStep, wellFormedElapsed_iff]
  | setKeydown k down => simp [runsStep]

/-- After a load the host's next operation is a legal step: the first one listed, or `step(0)`. -/
theorem nextHostOp_withFetchWord (s : State) (nbits w : Nat) :
    ∃ e rest, 0 ≤ e ∧ nextHostOp (s.withFetchWord nbits w) = (.step e, rest) := by
  have hhost : (s.withFetchWord nbits w).host = s.host.dropWhile (fun op => !runsStep op) := rfl
  rw [nextHostOp, hhost]
  cases hd : s.host.dropWhile (fun op => !runsStep op) with
  | nil => exact ⟨0, [], le_refl 0, rfl⟩
  | cons op rest =>
    have hop : runsStep op = true := by
      have := List.head?_dropWhile_not (fun op => !runsStep op) s.host
      simpa [hd] using this
    obtain ⟨e, rfl, he⟩ := runsStep_iff.mp hop
    exact ⟨e, rest, he, rfl⟩

end Sys2Proof.Machine
end

section
/-! PROOFS. The obligations of the family of 40_step_cycle.md, from the lemmas above. -/

namespace Sys2Proof.Machine

/-- Settles O18: the bound on the ticks is always enough, and one round of the loop lowers it by one. -/
theorem elapsedTimeRunsTheTickLoop : Obligations.ElapsedTimeRunsTheTickLoop := by
  refine ⟨fun s e => stepElapsed_of_legal, fun s e => Clock.elapse_eq_elapse_zero s.clock e,
    fun c => ⟨Clock.elapse_zero_of_lt, Clock.elapse_zero_of_le⟩, fun t => ?_⟩
  rw [satdec_toNat]
  split <;> omega

/-- Settles O19: the loop takes `⌊60 T⌋` ticks, and a tick taken early is one fewer to take later. -/
theorem elapsedTimeHasItsClosedForm : Obligations.ElapsedTimeHasItsClosedForm := by
  refine ⟨fun s e h => ?_, fun s e f hs he hf => ?_⟩
  · obtain ⟨h0, h1⟩ := Clock.elapse_acc_range_of_add (c := s.clock) h
    have hclock := Clock.elapse_eq_tickTimes (c := s.clock) h
    refine ⟨?_, h0, h1, ?_, ?_, unchangedBut_elapse s e⟩
    · rw [State.elapse_acc, hclock, Clock.tickTimes, State.clock_acc, natCast_tickBound h, Config.tick]
      ring
    · rw [State.elapse_dt, hclock, ← tickBound_eq]
      exact satdec_iterate_toNat _ _
    · rw [State.elapse_st, hclock, ← tickBound_eq]
      exact satdec_iterate_toNat _ _
  · have hclock : (s.elapse e).clock.elapse f = s.clock.elapse (e + f) := Clock.elapse_elapse (add_nonneg hs he) hf
    rw [State.elapse, hclock]
    rfl

/-- Settles O50: under a halt condition the halt is all, and an effect leaves the halt as it was. -/
theorem haltingInstructionChangesNothingElse : Obligations.HaltingInstructionChangesNothingElse :=
  fun _ _ _ _ hs h hr => ⟨exec_halted hs h hr, State.continues_of_halt_some hr⟩

/-- Settles O51: the step has fetched, and the halt is that of the fetch exactly where PC + 1 is outside memory. -/
theorem haltingStepLeavesOnlyTicksAndFetch : Obligations.HaltingStepLeavesOnlyTicksAndFetch := by
  intro s t e _ h
  refine ⟨State.continues_of_halt_none, fun r hr => ⟨State.continues_of_halt_some hr, ?_⟩⟩
  obtain ⟨hs, hf⟩ := stepElapsed_halted h hr
  obtain ⟨hpc, rfl, rfl⟩ | ⟨hpc, rfl⟩ := fetchExecute_halted hs hf hr
  · exact ⟨fun _ => ⟨rfl, rfl⟩, fun hin => absurd hin (Nat.not_lt.mpr hpc)⟩
  · exact ⟨fun hout => absurd hpc (Nat.not_lt.mpr hout), fun _ => rfl⟩

/-- Settles O55: the loaded word is fetched, and no operation comes before the next legal step. -/
theorem loadedWordRunsNext : Obligations.LoadedWordRunsNext := by
  intro s w i h
  obtain ⟨e, rest, he, hop⟩ := nextHostOp_withFetchWord s 16 w
  exact ⟨e, rest, he, hop, step_of_decoded (withFetchWord_running s 16 w) he hop (fetch_withFetchWord s 16 w)
    (decodeWord_of_decodeTableWord h)⟩

/-- Settles O15: the two bytes at PC are the fetched word. -/
theorem stepRunsTheDecodedInstruction : Obligations.StepRunsTheDecodedInstruction := by
  intro s e rest i tail hs he hop hpc hd
  obtain ⟨hi, lo, hbytes, hw⟩ := decode_eq_ok_iff.mp hd
  obtain ⟨rfl, hrest⟩ := List.cons.inj hbytes
  obtain ⟨rfl, -⟩ := List.cons.inj hrest
  exact step_of_decoded hs he hop (State.fetch_eq_some.mpr ⟨hpc, rfl⟩) hw

/-- Settles O17: waiting or not, a legal step has a next state, since every fetch and every instruction has one. -/
theorem stepIsRefusedExactlyAfterHaltOrForNegativeTime :
    Obligations.StepIsRefusedExactlyAfterHaltOrForNegativeTime := by
  intro s e
  refine ⟨fun h => stepElapsed_of_halted h e, stepElapsed_of_neg, fun h he => ?_⟩
  rw [stepElapsed_of_legal h he]
  split
  · exact ⟨_, rfl⟩
  · exact fetchExecute_total _

/-- Settles O20: the wait gate ends the step with the time elapsed. -/
theorem waitingStepOnlyKeepsTime : Obligations.WaitingStepOnlyKeepsTime := by
  intro s e hw hh he
  have hhalt : (s.elapse e).halt = none := s.halted_eq_false_iff.mp hh
  refine ⟨s.elapse e, ?_, State.continues_of_halt_none hhalt, unchangedBut_elapse s e, State.clock_elapse s e⟩
  rw [stepElapsed_of_legal hh he, if_pos hw]

end Sys2Proof.Machine
end

section
/-! SUPPORT. What the family of 41_control_flow.md rests on: the words of a row of the opcode table, what a skip does to
PC, the targets of the jumps as numbers, and what CALL and RET do to the stack. -/

namespace Sys2Proof.Machine

/-! ### The encoding and the halt of any instruction -/

/-- The words that select a row, named by its place in the table, are the row's instruction (R58, R59). -/
theorem encodedBy_row (n : Fin opcodeTable.length) :
    EncodedBy opcodeTable[n].mask opcodeTable[n].pattern opcodeTable[n].build :=
  fun _ hw => decodeWord_eq_some_iff.mpr ⟨_, List.getElem_mem _, OpcodeRow.selects_iff.mpr hw, rfl⟩

/-- Under a halt condition the halt is all that an instruction does. -/
theorem exec_haltsWith {i : Instr} {s : State} {r : HaltReason} (h : haltCondition s r i) :
    ∃ t, exec i s = .next t ∧ HaltsWith r s t :=
  ⟨_, exec_of_haltCondition h, haltsWith_halt r s⟩

/-! ### Skips (R79) -/

theorem State.advancePc_pc_toNat (s : State) : s.advancePc.pc.toNat = (s.pc.toNat + 2) % 65536 :=
  BitVec.toNat_add s.pc 2

/-- An instruction that skips on `c`, where `p` makes `c` true and `q` makes it false. -/
theorem exec_skip_spec {i : Instr} {s : State} {c : Bool} {p q : Prop} (h : exec i s = .next (s.skipIf c))
    (hp : p → c = true) (hq : q → c = false) :
    ∃ t, exec i s = .next t ∧ UnchangedBut [.pc] s t ∧
      (p → t.pc.toNat = (s.pc.toNat + 2) % 65536) ∧ (q → t.pc = s.pc) := by
  refine ⟨_, h, unchangedBut_skipIf s c, fun h => ?_, fun h => ?_⟩
  · rw [hp h, State.skipIf_true, State.advancePc_pc_toNat]
  · rw [hq h, State.skipIf_false]

/-! ### Targets (R57, R87) -/

theorem addressOperand_toNat (addr : BitVec 12) : (addressOperand addr).toNat = addr.toNat :=
  BitVec.toNat_setWidth_of_le (by decide)

/-- The sum of an offset jump fits in 16 bits. -/
theorem offsetTarget_toNat (addr : BitVec 12) (v0 : Byte) : (offsetTarget addr v0).toNat = addr.toNat + v0.toNat := by
  simp only [offsetTarget, BitVec.toNat_add, BitVec.toNat_setWidth]
  omega

/-! ### Call and return (R80, R82) -/

/-- With room on the stack CALL completes. -/
theorem exec_call_of_lt {s : State} (h : s.stack.length < Config.callStackDepth) (addr : BitVec 12) :
    exec (.call addr) s = .next (effect (.call addr) s) := if_pos h

theorem effect_call_stack (addr : BitVec 12) (s : State) : (effect (.call addr) s).stack = s.pc :: s.stack := rfl

theorem exec_ret_of_cons {s : State} {a : Word} {rest : List Word} (h : s.stack = a :: rest) :
    exec .ret s = .next ((s.setStack rest).setPc a) := by
  simp only [exec, execRet, h]

/-- RET with a return address on the stack. -/
theorem exec_ret_spec {s : State} {a : Word} {rest : List Word} (h : s.stack = a :: rest) :
    ∃ t, exec .ret s = .next t ∧ t.pc = a ∧ t.stack = rest ∧ UnchangedBut [.pc, .stack] s t :=
  ⟨_, exec_ret_of_cons h, rfl, rfl,
    ((unchangedBut_setStack s rest).append (unchangedBut_setPc _ a)).mono (by simp)⟩

end Sys2Proof.Machine
end

section
/-! PROOFS. The obligations of the family of 41_control_flow.md, from the lemmas above. -/

namespace Sys2Proof.Machine

/-- Settles O28: the CALL leaves its return address on top of the stack, and RET pops whatever is on top. -/
theorem callThenReturnRestoresPcAndStack : Obligations.CallThenReturnRestoresPcAndStack := by
  intro s t t' addr hroom hcall hstack
  rw [exec_call_of_lt hroom, Host.Outcome.next.injEq] at hcall
  have hpushed : t'.stack = s.pc :: s.stack := by rw [hstack, ← hcall, effect_call_stack]
  exact exec_ret_spec hpushed

/-- Settles O24: each of the four skips on its own comparison. -/
theorem registerSkipsAdvancePcWhenTheirConditionHolds : Obligations.RegisterSkipsAdvancePcWhenTheirConditionHolds := by
  refine ⟨encodedBy_row ⟨4, by decide⟩, encodedBy_row ⟨5, by decide⟩, encodedBy_row ⟨6, by decide⟩,
    encodedBy_row ⟨18, by decide⟩, fun s x y k => ⟨?seK, ?sneK, ?seV, ?sneV⟩⟩
  case seK | seV => exact exec_skip_spec rfl beq_iff_eq.mpr beq_eq_false_iff_ne.mpr
  case sneK | sneV => exact exec_skip_spec rfl bne_iff_ne.mpr bne_eq_false_iff_eq.mpr

/-- Settles O25: neither target wraps, and from 0xFFF on the second byte of the next fetch is outside memory. -/
theorem jumpsSetPcToTheirTarget : Obligations.JumpsSetPcToTheirTarget := by
  refine ⟨encodedBy_row ⟨2, by decide⟩, encodedBy_row ⟨20, by decide⟩, fun s addr => ⟨?jp, ?jpV0⟩⟩
  case jp => exact ⟨_, rfl, addressOperand_toNat addr, unchangedBut_setPc s _⟩
  case jpV0 =>
    have hpc := offsetTarget_toNat addr (s.readV 0)
    refine ⟨_, rfl, hpc, unchangedBut_setPc s _, fun hfar => ?_⟩
    have hout : Config.memSize ≤ (offsetTarget addr (s.readV 0)).toNat + 1 := by
      rw [hpc]
      exact Nat.succ_le_succ hfar
    exact ⟨_, fetchExecute_of_outside hout, haltsWith_halt _ _⟩

/-- Settles O26: there is room for a return address, or the stack is full and the halt condition holds. -/
theorem callPushesReturnAddressOrHalts : Obligations.CallPushesReturnAddressOrHalts := by
  refine ⟨encodedBy_row ⟨3, by decide⟩, fun s addr => ⟨fun hroom => ?_, fun hfull => ?_⟩⟩
  · exact ⟨_, exec_call_of_lt hroom addr, effect_call_stack addr s, addressOperand_toNat addr,
      unchangedBut_effect (.call addr) s⟩
  · exact exec_haltsWith (r := .stackOverflow) hfull.ge

/-- Settles O27: the stack has a newest return address, or it is empty and the halt condition holds. -/
theorem returnPopsIntoPcOrHalts : Obligations.ReturnPopsIntoPcOrHalts := by
  refine ⟨encodedBy_row ⟨1, by decide⟩, fun s => ⟨fun a rest hstack => ?_, fun hempty => ?_⟩⟩
  · exact exec_ret_spec hstack
  · exact exec_haltsWith (r := .stackUnderflow) hempty

end Sys2Proof.Machine
end

section
/-! SUPPORT. What the family of 42_arithmetic.md rests on: what an instruction that writes a result, or a result and then a
flag, does to the registers, the flags and shifts as numbers, and the draw of a random byte. -/

namespace Sys2Proof.Machine

/-! ### Writing a result, and a flag after it (R13, R101) -/

/-- An instruction that writes `w` to Vx: whatever holds of `w` holds of Vx afterwards. -/
theorem exec_writeV_spec (P : Byte → Prop) {i : Instr} {s : State} {x : Reg} {w : Byte}
    (h : exec i s = .next (s.writeV x w)) (hw : P w) :
    ∃ t, exec i s = .next t ∧ P (t.readV x) ∧ OnlyRegs [x] s t := by
  refine ⟨_, h, ?_, onlyRegs_writeV (List.mem_singleton_self x) s w⟩
  rwa [State.readV_writeV, if_pos rfl]

theorem flagByte_toNat (b : Bool) : (flagByte b).toNat = b.toNat := by cases b <;> rfl

/-- An instruction that writes `w` to Vx and then the flag `b` to VF, with both as numbers. -/
theorem exec_writeResultFlag_spec {i : Instr} {s : State} {x : Reg} {w : Byte} {b : Bool} {flag result : Nat}
    (h : exec i s = .next (s.writeResultFlag x w (flagByte b))) (hb : b.toNat = flag) (hw : w.toNat = result) :
    ∃ t, exec i s = .next t ∧ (t.readV VF).toNat = flag ∧ (x ≠ VF → (t.readV x).toNat = result) ∧
      OnlyRegs [x, VF] s t := by
  refine ⟨_, h, ?flag, fun hx => ?result, onlyRegs_writeResultFlag s x w _⟩
  case flag => rw [State.readV_writeResultFlag, if_pos rfl, flagByte_toNat, hb]
  case result => rw [State.readV_writeResultFlag, if_neg hx, if_pos rfl, hw]

/-! ### Flags and results as numbers (R88, R95 to R99) -/

theorem carryOut_toNat (a b : Byte) : (carryOut a b).toNat = if 255 < a.toNat + b.toNat then 1 else 0 :=
  Bool.cond_decide _ _ _

theorem noBorrow_toNat (a b : Byte) : (noBorrow a b).toNat = if b.toNat ≤ a.toNat then 1 else 0 :=
  Bool.cond_decide _ _ _

theorem shiftedOutRight_toNat (b : Byte) : (shiftedOutRight b).toNat = b.toNat % 2 := by
  have hbit : (shiftedOutRight b).toNat = b.toNat / 1 % 2 := Nat.toNat_testBit b.toNat 0
  rwa [Nat.div_one] at hbit

/-- Above bit 7 a byte has no bits, so its bit 7 is all that dividing by 128 leaves. -/
theorem shiftedOutLeft_toNat (b : Byte) : (shiftedOutLeft b).toNat = b.toNat / 128 := by
  have hbit : (shiftedOutLeft b).toNat = b.toNat / 128 % 2 := Nat.toNat_testBit b.toNat 7
  have hb := b.isLt
  omega

/-- The difference of two bytes, with 256 added so that it is not cut off at 0. -/
theorem byte_toNat_sub (a b : Byte) : (a - b).toNat = (a.toNat + 256 - b.toNat) % 256 := by
  have hb := b.isLt
  rw [BitVec.toNat_sub]
  omega

theorem byte_toNat_shiftRight_one (b : Byte) : (b >>> 1).toNat = b.toNat / 2 := by
  rw [BitVec.toNat_ushiftRight, Nat.shiftRight_eq_div_pow, pow_one]

theorem byte_toNat_shiftLeft_one (b : Byte) : (b <<< 1).toNat = 2 * b.toNat % 256 := by
  rw [BitVec.toNat_shiftLeft, Nat.shiftLeft_eq, pow_one, mul_comm]

/-! ### Drawing a byte (R29, R100) -/

/-- Where no byte is known the draw is the free value (log entry 5). -/
theorem State.nextRandom_unknown {s : State} (h : s.randBytes = []) : s.nextRandom = Config.randByte s.draws := by
  rw [State.nextRandom, h]

/-- RND draws the byte `r` that is next and leaves the known bytes after it. -/
theorem exec_rnd_spec {s : State} {r : Byte} {rest : List Byte} (hr : s.nextRandom = r) (hrest : s.randBytes.tail = rest)
    (x : Reg) (k : Byte) :
    ∃ t, exec (.rnd x k) s = .next t ∧ t.readV x = r &&& k ∧ t.randBytes = rest ∧ t.draws = s.draws + 1 ∧
      RegsUnchangedBut [x] s t ∧ UnchangedBut [.v, .source] s t := by
  refine ⟨effect (.rnd x k) s, rfl, ?value, hrest, rfl, ?regs, unchangedBut_effect (.rnd x k) s⟩
  case value => rw [effect, State.readV_writeV, if_pos rfl, hr]
  case regs => exact (onlyRegs_writeV (List.mem_singleton_self x) s.drawn _).1

end Sys2Proof.Machine
end

section
/-! PROOFS. The obligations of the family of 42_arithmetic.md, from the lemmas above. -/

namespace Sys2Proof.Machine

/-- Settles O29: each of the six writes one result to Vx, the sum modulo 256 and the logic operations bit by bit. -/
theorem loadsAndLogicWriteTheirRegisterOnly : Obligations.LoadsAndLogicWriteTheirRegisterOnly := by
  refine ⟨encodedBy_row ⟨7, by decide⟩, encodedBy_row ⟨8, by decide⟩, encodedBy_row ⟨9, by decide⟩,
    encodedBy_row ⟨10, by decide⟩, encodedBy_row ⟨11, by decide⟩, encodedBy_row ⟨12, by decide⟩,
    fun s x y k => ⟨?ldK, ?addK, ?ldV, ?orV, ?andV, ?xorV⟩⟩
  case ldK => exact exec_writeV_spec (· = k) rfl rfl
  case addK => exact exec_writeV_spec (fun w => w.toNat = _) rfl (BitVec.toNat_add _ _)
  case ldV => exact exec_writeV_spec (· = s.readV y) rfl rfl
  case orV =>
    exact exec_writeV_spec (fun w => ∀ j, w.getLsbD j = ((s.readV x).getLsbD j || (s.readV y).getLsbD j)) rfl
      fun _ => BitVec.getLsbD_or
  case andV =>
    exact exec_writeV_spec (fun w => ∀ j, w.getLsbD j = ((s.readV x).getLsbD j && (s.readV y).getLsbD j)) rfl
      fun _ => BitVec.getLsbD_and
  case xorV =>
    exact exec_writeV_spec (fun w => ∀ j, w.getLsbD j = ((s.readV x).getLsbD j ^^ (s.readV y).getLsbD j)) rfl
      fun _ => BitVec.getLsbD_xor

/-- Settles O30: the sum modulo 256, and the carry of the old operands. -/
theorem addSetsCarryLast : Obligations.AddSetsCarryLast :=
  ⟨encodedBy_row ⟨13, by decide⟩, fun _ _ _ => exec_writeResultFlag_spec rfl (carryOut_toNat _ _) (BitVec.toNat_add _ _)⟩

/-- Settles O31: the difference modulo 256, and whether Vx was at least Vy. -/
theorem subtractSetsNoBorrowLast : Obligations.SubtractSetsNoBorrowLast :=
  ⟨encodedBy_row ⟨14, by decide⟩, fun _ _ _ => exec_writeResultFlag_spec rfl (noBorrow_toNat _ _) (byte_toNat_sub _ _)⟩

/-- Settles O32: as O31 with the operands exchanged. -/
theorem reversedSubtractSetsNoBorrowLast : Obligations.ReversedSubtractSetsNoBorrowLast :=
  ⟨encodedBy_row ⟨16, by decide⟩, fun _ _ _ => exec_writeResultFlag_spec rfl (noBorrow_toNat _ _) (byte_toNat_sub _ _)⟩

/-- Settles O33: half of Vy, and the bit that halving loses. -/
theorem shiftRightTakesItsOperandFromVy : Obligations.ShiftRightTakesItsOperandFromVy :=
  ⟨encodedBy_row ⟨15, by decide⟩, fun _ _ _ =>
    exec_writeResultFlag_spec rfl (shiftedOutRight_toNat _) (byte_toNat_shiftRight_one _)⟩

/-- Settles O34: twice Vy modulo 256, and the bit that the reduction loses. -/
theorem shiftLeftTakesItsOperandFromVy : Obligations.ShiftLeftTakesItsOperandFromVy :=
  ⟨encodedBy_row ⟨17, by decide⟩, fun _ _ _ =>
    exec_writeResultFlag_spec rfl (shiftedOutLeft_toNat _) (byte_toNat_shiftLeft_one _)⟩

/-- Settles O35: the byte drawn is the first known one, or the free value where none is known. -/
theorem randomDrawsOneByteAndMasksIt : Obligations.RandomDrawsOneByteAndMasksIt := by
  refine ⟨encodedBy_row ⟨21, by decide⟩, fun s x k => ⟨fun r rest hknown => ?known, fun hnone => ?unknown⟩⟩
  case known => exact exec_rnd_spec (s.nextRandom_known r rest hknown) (congrArg List.tail hknown) x k
  case unknown => exact exec_rnd_spec (State.nextRandom_unknown hnone) (congrArg List.tail hnone) x k

end Sys2Proof.Machine
end

section
/-! SUPPORT. What the family of 43_index_memory.md rests on: glyph addresses and decimal digits as numbers, how far a
loop over registers moves I, and what memory or the registers hold after LD B, LD [I] and LD Vx, [I]. -/

namespace Sys2Proof.Machine

/-! ### Operands and digits as numbers (R104, R105) -/

/-- The last glyph starts at 75, so no glyph address wraps. -/
theorem glyphAddress_toNat (v : Byte) : (glyphAddress v).toNat = 5 * (v.toNat % 16) := by
  have hnibble : (v &&& 0x0F#8).toNat = v.toNat % 16 := Nat.and_two_pow_sub_one_eq_mod v.toNat 4
  have hbase : Config.fontBase = 0 := rfl
  have hglyph : Config.glyphBytes = 5 := rfl
  rw [glyphAddress, hnibble, BitVec.toNat_ofNat, hbase, hglyph]
  omega

theorem hundreds_toNat (v : Byte) : (hundreds v).toNat = v.toNat / 100 := by
  have hv := v.isLt
  rw [hundreds, BitVec.toNat_ofNat]
  omega

theorem tens_toNat (v : Byte) : (tens v).toNat = v.toNat / 10 % 10 := by
  rw [tens, BitVec.toNat_ofNat]
  omega

theorem ones_toNat (v : Byte) : (ones v).toNat = v.toNat % 10 := by
  rw [ones, BitVec.toNat_ofNat]
  omega

/-! ### Completing inside the bounds (R103, R105, R107) -/

/-- ADD I, Vx whose sum fits completes with its effect. -/
theorem exec_addI_of_le {s : State} {x : Reg} (h : s.i.toNat + (s.readV x).toNat ≤ 0xFFFF) :
    exec (.addI x) s = .next (effect (.addI x) s) := if_pos h

/-- LD B, Vx whose last address exists completes with its effect. -/
theorem exec_ldB_of_le {s : State} (h : s.i.toNat + 2 ≤ 0xFFF) (x : Reg) :
    exec (.ldB x) s = .next (effect (.ldB x) s) :=
  withBytes_pos (Nat.succ_le_succ h) _ _

/-- LD Vx, [I] whose last address exists completes with its effect. -/
theorem exec_load_of_le {s : State} {x : Reg} (h : s.i.toNat + x.val ≤ 0xFFF) :
    exec (.load x) s = .next (effect (.load x) s) :=
  withBytes_pos (Nat.succ_le_succ h) _ _

/-- A sum that fits 16 bits is what I holds after ADD I, Vx. -/
theorem effect_addI_i_toNat {s : State} {x : Reg} (h : s.i.toNat + (s.readV x).toNat ≤ 0xFFFF) :
    (effect (.addI x) s).i.toNat = s.i.toNat + (s.readV x).toNat := by
  rw [effect, State.setI_i, BitVec.toNat_ofNat, Nat.mod_eq_of_lt (Nat.lt_succ_of_le h)]

/-! ### Storing digits (R105) -/

theorem readByte_storeDigits (v : Byte) (s : State) (b : Nat) :
    (storeDigits v s).readByte b =
      if b = s.i.toNat + 2 then ones v
      else if b = s.i.toNat + 1 then tens v
      else if b = s.i.toNat then hundreds v
      else s.readByte b := by
  simp only [storeDigits, State.readByte_writeByte]

theorem bytesUnchangedBut_storeDigits (v : Byte) (s : State) : BytesUnchangedBut s.i.toNat 3 s (storeDigits v s) := by
  intro b hb
  rw [readByte_storeDigits, if_neg (by omega), if_neg (by omega), if_neg (by omega)]

/-! ### Loops over the registers (R106, R107) -/

/-- A loop whose rounds each add 1 to I moves I by the number of rounds, where that fits 16 bits. -/
theorem i_toNat_foldl_range {f : State → Nat → State} (hf : ∀ s j, (f s j).i = s.i + 1) {s : State} {n : Nat}
    (h : s.i.toNat + n ≤ 0xFFFF) : ((List.range n).foldl f s).i.toNat = s.i.toNat + n := by
  have hone : (1 : Word).toNat = 1 := rfl
  induction n with
  | zero => rfl
  | succ n ih =>
    rw [List.range_succ, List.foldl_append, List.foldl_cons, List.foldl_nil, hf, BitVec.toNat_add, ih (by omega), hone]
    omega

/-- Where I does not wrap, loading the first `n` registers puts the byte at I + j into `V[j]` for `j < n` and leaves
every other register. -/
theorem readV_loadOne_range {s : State} {n : Nat} (h : s.i.toNat + n ≤ 0x10000) (hn : n ≤ 16) (r : Reg) :
    ((List.range n).foldl loadOne s).readV r =
      if r.val < n then s.readByte (s.i.toNat + r.val) else s.readV r := by
  induction n with
  | zero => exact (if_neg (Nat.not_lt_zero _)).symm
  | succ n ih =>
    have hi : ((List.range n).foldl loadOne s).i.toNat = s.i.toNat + n :=
      i_toNat_foldl_range (fun _ _ => rfl) (by omega)
    have hmem : ((List.range n).foldl loadOne s).readByte (s.i.toNat + n) = s.readByte (s.i.toNat + n) :=
      UnchangedBut.foldl unchangedBut_loadOne (List.range n) s .mem (by decide) _
    have hreg : r = Fin.ofNat 16 n ↔ r.val = n := by
      rw [Fin.ext_iff, Fin.val_ofNat, Nat.mod_eq_of_lt hn]
    rw [List.range_succ, List.foldl_append, List.foldl_cons, List.foldl_nil, loadOne, State.readV_setI,
      State.readV_writeV, hi, hmem, ih (by omega) (by omega)]
    by_cases hr : r.val = n
    · rw [if_pos (hreg.mpr hr), if_pos (by omega), hr]
    · have hlt : r.val < n + 1 ↔ r.val < n := by omega
      simp only [hreg, if_neg hr, hlt]

/-- LD [I], Vx inside memory leaves every byte outside the `x + 1` from I on. -/
theorem bytesUnchangedBut_effect_store {s : State} {x : Reg} (h : s.i.toNat + x.val ≤ 0xFFF) :
    BytesUnchangedBut s.i.toNat (x.val + 1) s (effect (.store x) s) := by
  intro b hb
  rw [effect, readByte_storeOne_range (by omega), if_neg (by omega)]

/-- LD Vx, [I] inside memory leaves the bytes from I on in V0 to Vx, and the registers above Vx as they were. -/
theorem readV_effect_load {s : State} {x : Reg} (h : s.i.toNat + x.val ≤ 0xFFF) (r : Reg) :
    (effect (.load x) s).readV r = if r.val ≤ x.val then s.readByte (s.i.toNat + r.val) else s.readV r := by
  rw [effect, readV_loadOne_range (by omega) x.isLt]
  simp only [Nat.lt_succ_iff]

end Sys2Proof.Machine
end

section
/-! PROOFS. The obligations of the family of 43_index_memory.md, from the lemmas above. -/

namespace Sys2Proof.Machine

/-- Settles O38: the three writes are to different addresses, or the last is outside memory and the halt condition
holds. -/
theorem decimalDigitsAreStoredOrHalt : Obligations.DecimalDigitsAreStoredOrHalt := by
  refine ⟨encodedBy_row ⟨31, by decide⟩, fun s x => ⟨fun hin => ?stored, fun hout => ?halts⟩⟩
  case stored =>
    have hread := readByte_storeDigits (s.readV x) s
    refine ⟨_, exec_ldB_of_le hin x, ?hundreds, ?tens, ?ones, bytesUnchangedBut_storeDigits _ s,
      unchangedBut_effect (.ldB x) s⟩
    case hundreds => rw [effect, hread, if_neg (by omega), if_neg (by omega), if_pos rfl, hundreds_toNat]
    case tens => rw [effect, hread, if_neg (by omega), if_pos rfl, tens_toNat]
    case ones => rw [effect, hread, if_pos rfl, ones_toNat]
  case halts => exact exec_haltsWith (r := .memoryOutOfRange) hout

/-- Settles O39: the loop writes one byte for each register up to Vx, or its last address is outside memory and the halt
condition holds. -/
theorem bulkStoreWritesRegistersOrHalts : Obligations.BulkStoreWritesRegistersOrHalts := by
  refine ⟨encodedBy_row ⟨32, by decide⟩, fun s x => ⟨fun hin => ?stored, fun hout => ?halts⟩⟩
  case stored =>
    exact ⟨_, exec_store_of_le hin, fun _ => readByte_effect_store hin,
      i_toNat_foldl_range (fun _ _ => rfl) (by omega), bytesUnchangedBut_effect_store hin,
      unchangedBut_effect (.store x) s⟩
  case halts => exact exec_haltsWith (r := .memoryOutOfRange) hout

/-- Settles O40: the loop writes one register for each byte up to I + x, or its last address is outside memory and the
halt condition holds. -/
theorem bulkLoadReadsMemoryOrHalts : Obligations.BulkLoadReadsMemoryOrHalts := by
  refine ⟨encodedBy_row ⟨33, by decide⟩, fun s x => ⟨fun hin => ?loaded, fun hout => ?halts⟩⟩
  case loaded =>
    refine ⟨_, exec_load_of_le hin, fun j hj => ?upTo, fun j hj => ?above,
      i_toNat_foldl_range (fun _ _ => rfl) (by omega), unchangedBut_effect (.load x) s⟩
    case upTo => rw [readV_effect_load hin, if_pos hj]
    case above => rw [readV_effect_load hin, if_neg (Nat.not_le.mpr hj)]
  case halts => exact exec_haltsWith (r := .memoryOutOfRange) hout

/-- Settles O36: both write I only, with a value that fits 16 bits. -/
theorem indexLoadsSetI : Obligations.IndexLoadsSetI := by
  refine ⟨encodedBy_row ⟨19, by decide⟩, encodedBy_row ⟨30, by decide⟩, fun s x addr => ⟨?ldI, ?ldF⟩⟩
  case ldI => exact ⟨_, rfl, addressOperand_toNat addr, unchangedBut_setI s _⟩
  case ldF => exact ⟨_, rfl, glyphAddress_toNat (s.readV x), unchangedBut_setI s _⟩

/-- Settles O37: the sum fits 16 bits, or the halt condition holds. -/
theorem indexAddOrOverflowHalt : Obligations.IndexAddOrOverflowHalt := by
  refine ⟨encodedBy_row ⟨29, by decide⟩, fun s x => ⟨fun hfits => ?added, fun hover => ?halts⟩⟩
  case added => exact ⟨_, exec_addI_of_le hfits, effect_addI_i_toNat hfits, unchangedBut_effect (.addI x) s⟩
  case halts => exact exec_haltsWith (r := .indexOverflow) hover

end Sys2Proof.Machine
end

section
/-! SUPPORT. What the family of 44_display.md rests on: the clipped sprite in the terms of Safety.lean, and what a DRW
that completes does to every pixel and to VF. -/

namespace Sys2Proof.Machine

/-! ### Pixels and the screen (R108, R112) -/

/-- A pixel that reads true is on the screen. -/
theorem State.pixel_inside {s : State} {c r : Nat} (h : s.pixel c r = true) : c < 64 ∧ r < 32 :=
  of_not_not fun hout => Bool.false_ne_true ((s.fb.get_outside hout).symm.trans h)

theorem State.getDisplaySpot_iff {s : State} {c r : Int} :
    s.getDisplaySpot c r = true ↔ 0 ≤ c ∧ 0 ≤ r ∧ s.pixel c.toNat r.toNat = true := by
  rw [State.getDisplaySpot, Bool.if_false_right, Bool.and_eq_true, decide_eq_true_iff, and_assoc]

theorem State.isToneOn_iff {s : State} : s.isToneOn = true ↔ s.st.toNat ≠ 0 := by
  rw [State.isToneOn, bne_iff_ne, ← BitVec.toNat_ne_iff_ne]
  rfl

/-! ### The sprite (R110) -/

/-- What DRW draws is the sprite at I, clipped to the screen. -/
theorem spriteBitAt_i_iff {s : State} {cx cy n c r : Nat} :
    spriteBitAt s s.i.toNat cx cy n c r = true ↔ c < 64 ∧ r < 32 ∧ spriteBit s cx cy n c r = true := by
  simp only [spriteBitAt, spriteBit, Bool.and_eq_true, decide_eq_true_iff, and_assoc]

theorem and_spriteBitAt_i_iff {p : Prop} {s : State} {cx cy n c r : Nat} :
    p ∧ spriteBitAt s s.i.toNat cx cy n c r = true ↔ c < 64 ∧ r < 32 ∧ p ∧ spriteBit s cx cy n c r = true := by
  rw [spriteBitAt_i_iff, and_left_comm, and_left_comm (b := r < 32)]

theorem spriteBitAt_i_of_inside {s : State} {cx cy n c r : Nat} (hc : c < 64) (hr : r < 32) :
    spriteBitAt s s.i.toNat cx cy n c r = spriteBit s cx cy n c r := by
  rw [Bool.eq_iff_iff, spriteBitAt_i_iff, and_iff_right hc, and_iff_right hr]

/-- Two states with the same sprite bytes have the same sprite. -/
theorem spriteBitAt_congr {s t : State} {a n : Nat} (h : ∀ q, q < n → t.readByte (a + q) = s.readByte (a + q))
    (cx cy c r : Nat) : spriteBitAt t a cx cy n c r = spriteBitAt s a cx cy n c r := by
  rw [Bool.eq_iff_iff]
  simp only [spriteBitAt, Bool.and_eq_true, decide_eq_true_iff]
  refine and_congr_right fun hin => ?_
  rw [h (r - cy) (by omega)]

/-! ### A draw that completes (R110) -/

/-- DRW whose sprite bytes exist, or which has none, completes with its effect. -/
theorem exec_drw_of_le {s : State} {n : Fin 16} (h : n.val = 0 ∨ s.i.toNat + n.val - 1 ≤ 0xFFF) (x y : Reg) :
    exec (.drw x y n) s = .next (effect (.drw x y n) s) := by
  have hsize : Config.memSize = 4096 := rfl
  by_cases hn : n.val = 0
  · exact if_pos hn
  · exact (if_neg hn).trans (withBytes_pos (by omega) _ _)

theorem pixel_effect_drw (x y : Reg) (n : Fin 16) (s : State) (c r : Nat) :
    (effect (.drw x y n) s).pixel c r =
      (s.pixel c r ^^ spriteBitAt s s.i.toNat (s.readV x).toNat (s.readV y).toNat n.val c r) :=
  drawSprite_get s _ _ _ _ c r

theorem readV_VF_effect_drw (x y : Reg) (n : Fin 16) (s : State) :
    ((effect (.drw x y n) s).readV VF).toNat =
      (drawSprite s s.i.toNat (s.readV x).toNat (s.readV y).toNat n.val).2.toNat := by
  rw [effect, drawEffect, State.readV_writeV, if_pos rfl, flagByte_toNat]

/-- VF is 1 exactly when a set bit of the clipped sprite falls on a set pixel. -/
theorem readV_VF_effect_drw_eq_one_iff {x y : Reg} {n : Fin 16} {s : State} :
    ((effect (.drw x y n) s).readV VF).toNat = 1 ↔ ∃ c r, s.pixel c r = true ∧
      spriteBitAt s s.i.toNat (s.readV x).toNat (s.readV y).toNat n.val c r = true := by
  rw [readV_VF_effect_drw, Bool.toNat_eq_one, drawSprite_hit]

/-- VF is a flag: it is 0 where it is not 1. -/
theorem readV_VF_effect_drw_eq_zero {x y : Reg} {n : Fin 16} {s : State}
    (h : ((effect (.drw x y n) s).readV VF).toNat ≠ 1) : ((effect (.drw x y n) s).readV VF).toNat = 0 := by
  rw [readV_VF_effect_drw] at h ⊢
  have hle := Bool.toNat_le (drawSprite s s.i.toNat (s.readV x).toNat (s.readV y).toNat n.val).2
  omega

theorem regsUnchangedBut_effect_drw (x y : Reg) (n : Fin 16) (s : State) :
    RegsUnchangedBut [VF] s (effect (.drw x y n) s) :=
  (onlyRegs_writeV (List.mem_singleton_self VF) (s.setFb _) _).1

end Sys2Proof.Machine
end

section
/-! PROOFS. The obligations of the family of 44_display.md, from the lemmas above. -/

namespace Sys2Proof.Machine

/-- Settles O42: the loops over rows and bits flip each pixel at most once, so a pixel is cleared exactly where the
sprite meets the old screen; out of range the halt condition holds. -/
theorem drawXorsTheClippedSprite : Obligations.DrawXorsTheClippedSprite := by
  refine ⟨encodedBy_row ⟨22, by decide⟩, fun s x y n => ⟨fun hin => ?drawn, fun hn hout => ?halts⟩⟩
  case drawn =>
    have hflag : ((effect (.drw x y n) s).readV VF).toNat = 1 ↔ ∃ c r, c < 64 ∧ r < 32 ∧ s.pixel c r = true ∧
        spriteBit s (s.readV x).toNat (s.readV y).toNat n.val c r = true := by
      simp only [readV_VF_effect_drw_eq_one_iff, and_spriteBitAt_i_iff]
    refine ⟨_, exec_drw_of_le hin x y, fun c r hc hr => ?pixel, hflag.mpr,
      fun hnone => readV_VF_effect_drw_eq_zero (mt hflag.mp hnone), regsUnchangedBut_effect_drw x y n s,
      unchangedBut_effect (.drw x y n) s⟩
    case pixel => rw [pixel_effect_drw, spriteBitAt_i_of_inside hc hr]
  case halts => exact exec_haltsWith (r := .memoryOutOfRange) ⟨hn, hout⟩

/-- Settles O43: both draws XOR each pixel with the same bit, so where that bit is set the second draw meets the
complement of the old screen. -/
theorem drawingTwiceRestoresTheScreen : Obligations.DrawingTwiceRestoresTheScreen := by
  intro s t t' u x y x' y' n hin hfirst hscreen hi hx hy hbytes hsecond
  rw [exec_drw_of_le hin, Host.Outcome.next.injEq] at hfirst
  rw [exec_drw_of_le (hi ▸ hin), Host.Outcome.next.injEq] at hsecond
  subst hfirst hsecond
  have hsprite := spriteBitAt_congr hbytes (s.readV x).toNat (s.readV y).toNat
  refine ⟨fun c r => ?restored, ?flag⟩
  case restored =>
    rw [pixel_effect_drw, hscreen, pixel_effect_drw, hi, hx, hy, hsprite, Bool.xor_assoc, Bool.xor_self, Bool.xor_false]
  case flag =>
    have hmeets : ∀ p b : Bool, (p ^^ b) = true ∧ b = true ↔ p = false ∧ b = true := by decide
    simp only [readV_VF_effect_drw_eq_one_iff, hscreen, pixel_effect_drw, hi, hx, hy, hsprite, hmeets,
      and_spriteBitAt_i_iff]

/-- Settles O23: the query checks only that its coordinates are not negative, since a pixel that reads true is on the
screen. -/
theorem queriesReadPixelAndTone : Obligations.QueriesReadPixelAndTone := by
  refine fun s => ⟨fun c r => ?spot, State.isToneOn_iff⟩
  case spot =>
    rw [State.getDisplaySpot_iff]
    constructor
    · rintro ⟨hc, hr, hset⟩
      obtain ⟨hcIn, hrIn⟩ := State.pixel_inside hset
      exact ⟨hc, by omega, hr, by omega, hset⟩
    · rintro ⟨hc, -, hr, -, hset⟩
      exact ⟨hc, hr, hset⟩

/-- Settles O41: CLS replaces the framebuffer by the cleared one. -/
theorem clearZeroesEveryPixel : Obligations.ClearZeroesEveryPixel :=
  ⟨encodedBy_row ⟨0, by decide⟩, fun s => ⟨_, rfl, Framebuffer.get_clear, unchangedBut_effect .cls s⟩⟩

end Sys2Proof.Machine
end

section
/-! SUPPORT. What the family of 45_timers_input.md rests on: the instruction that a legal step of a running core
executes, the key that a register names, and what `set_keydown` does to the keys, the wait and the target register. -/

namespace Sys2Proof.Machine

/-! ### A step that executes (R74, R75) -/

/-- A legal step of a running core executes the fetched instruction on the state with the step's own ticks taken and PC
advanced. -/
theorem stepElapsed_of_decoded {s : State} {e : Rat} {w : Word} {i : Instr} (hs : s.Running) (he : 0 ≤ e)
    (hf : s.fetch = some w) (hd : decodeWord w = some i) : stepElapsed e s = exec i (s.elapse e).advancePc := by
  obtain ⟨hw, hh⟩ := hs
  have hfetch : (s.elapse e).fetch = some w := hf
  rw [stepElapsed_of_legal hh he, if_neg (by simp [hw]), fetchExecute_of_decoded hfetch hd]

/-! ### The key that a register names (R118, R119) -/

theorem withKey_of_toNat_eq {v : Byte} {key : Key} (h : v.toNat = key.val) (s : State) (k : Key → Result) :
    withKey v s k = k key := by
  have hlt : v.toNat < 16 := h ▸ key.isLt
  rw [withKey_pos hlt, Fin.ext (a := ⟨v.toNat, hlt⟩) h]

theorem exec_skp_of_key {s : State} {x : Reg} {key : Key} (h : (s.readV x).toNat = key.val) :
    exec (.skp x) s = .next (s.skipIf (s.keyDown key)) := by
  rw [exec, execSkp, withKey_of_toNat_eq h]

theorem exec_sknp_of_key {s : State} {x : Reg} {key : Key} (h : (s.readV x).toNat = key.val) :
    exec (.sknp x) s = .next (s.skipIf (!s.keyDown key)) := by
  rw [exec, execSknp, withKey_of_toNat_eq h]

/-! ### Resolving a wait (R122) -/

theorem unchangedBut_disarm (s : State) : UnchangedBut [.wait] s s.disarm := by
  intro p hp
  cases p <;> simp_all [sameIn]

theorem unchangedBut_resolveWait (s : State) (key : Key) : UnchangedBut [.wait, .v] s (s.resolveWait key) :=
  (unchangedBut_disarm s).append (unchangedBut_writeV s.disarm _ _)

theorem regsUnchangedBut_resolveWait (s : State) (key : Key) : RegsUnchangedBut [s.waitReg] s (s.resolveWait key) :=
  (onlyRegs_writeV (List.mem_singleton_self s.waitReg) s.disarm _).1

/-- A key's index fits in the byte that the target register receives. -/
theorem readV_waitReg_resolveWait_toNat (s : State) (key : Key) :
    ((s.resolveWait key).readV s.waitReg).toNat = key.val := by
  rw [State.readV_resolveWait, if_pos rfl, BitVec.toNat_ofNat]
  omega

/-! ### `set_keydown` inside the range of keys (R121) -/

/-- A call that resolves: the core waits, and the key was recorded as down and is reported up. -/
theorem setKeydown_of_release {s : State} {key : Key} {down : Bool}
    (h : s.waiting = true ∧ s.keyDown key = true ∧ down = false) :
    setKeydown key.val down s = (s.setKey key down).resolveWait key := by
  obtain ⟨hwaiting, hkey, rfl⟩ := h
  rw [setKeydown_key, hwaiting, hkey]
  rfl

/-- Every other call only records the key. -/
theorem setKeydown_of_not_release {s : State} {key : Key} {down : Bool}
    (h : ¬ (s.waiting = true ∧ s.keyDown key = true ∧ down = false)) :
    setKeydown key.val down s = s.setKey key down := by
  rw [setKeydown_key, if_neg]
  simpa [and_assoc] using h

/-- Resolving or not, the call records the state of its key and of no other. -/
theorem keyDown_setKeydown (s : State) (key j : Key) (down : Bool) :
    (setKeydown key.val down s).keyDown j = if j = key then down else s.keyDown j := by
  rw [setKeydown_key]
  split
  · exact State.keyDown_setKey s key j down
  · exact State.keyDown_setKey s key j down

end Sys2Proof.Machine
end

section
/-! PROOFS. The obligations of the family of 45_timers_input.md, from the lemmas above. -/

namespace Sys2Proof.Machine

/-- Settles O21: the key is recorded in every case, and what else happens turns on whether the call is the release that
the wait is for. -/
theorem setKeydownRecordsAndResolves : Obligations.SetKeydownRecordsAndResolves := by
  rintro s _ k down rfl
  refine ⟨fun hout => setKeydown_outside (by omega) down s, ?inside⟩
  rintro key rfl
  have hkeys := keyDown_setKeydown s key
  have hrecorded := unchangedBut_setKey s key down
  refine ⟨by rw [hkeys, if_pos rfl], fun j hj => by rw [hkeys, if_neg hj], fun hrel => ?resolved, fun hrel => ?recorded⟩
  case resolved =>
    rw [setKeydown_of_release hrel]
    exact ⟨rfl, rfl, readV_waitReg_resolveWait_toNat (s.setKey key down) key,
      regsUnchangedBut_resolveWait (s.setKey key down) key,
      (hrecorded.append (unchangedBut_resolveWait _ key)).mono (by simp)⟩
  case recorded => rwa [setKeydown_of_not_release hrel]

/-- Settles O44: each of the three writes one byte, and a step executes LD Vx, DT on the state with its ticks taken. -/
theorem timerInstructionsMoveOneByte : Obligations.TimerInstructionsMoveOneByte := by
  refine ⟨encodedBy_row ⟨25, by decide⟩, encodedBy_row ⟨27, by decide⟩, encodedBy_row ⟨28, by decide⟩,
    fun s x => ⟨?ldVDt, fun e w hs he hf hd => ?stepLdVDt, ?ldDtV, ?ldStV⟩⟩
  case ldVDt => exact exec_writeV_spec (· = s.dt) rfl rfl
  case stepLdVDt =>
    obtain ⟨t, ht, hdt, -⟩ := exec_writeV_spec (i := .ldVDt x) (s := (s.elapse e).advancePc)
      (· = (s.clock.elapse e).dt) rfl rfl
    exact ⟨t, (stepElapsed_of_decoded hs he hf hd).trans ht, hdt⟩
  case ldDtV => exact ⟨_, rfl, rfl, unchangedBut_setDt s _⟩
  case ldStV => exact ⟨_, rfl, rfl, unchangedBut_setSt s _, State.isToneOn_iff⟩

/-- Settles O45: a value up to 15 names a key, on whose level the skip turns; above 15 the halt condition holds. -/
theorem keySkipsReadTheKeyOrHalt : Obligations.KeySkipsReadTheKeyOrHalt := by
  refine ⟨encodedBy_row ⟨23, by decide⟩, encodedBy_row ⟨24, by decide⟩,
    fun s x => ⟨fun key hkey => ⟨?skp, ?sknp⟩, fun hout => ⟨?skpHalts, ?sknpHalts⟩⟩⟩
  case skp => exact exec_skip_spec (exec_skp_of_key hkey) id id
  case sknp => exact exec_skip_spec (exec_sknp_of_key hkey) (congrArg not) (congrArg not)
  case skpHalts | sknpHalts => exact exec_haltsWith (r := .keyIndexOutOfRange) hout

/-- Settles O46: arming the wait writes its two fields only. -/
theorem keyWaitArmsWithoutWriting : Obligations.KeyWaitArmsWithoutWriting :=
  ⟨encodedBy_row ⟨26, by decide⟩, fun s x => ⟨_, rfl, rfl, rfl, unchangedBut_arm s x⟩⟩

end Sys2Proof.Machine
end

section
/-! SUPPORT. What the family of 60_exceptions.md rests on: what a halt reason says of the instruction that left it. -/

namespace Sys2Proof.Machine

/-- From a core that is not halted, an instruction leaves a halt reason exactly where its halt condition holds (R129):
any other instruction completes, and completing records no halt. -/
theorem exec_halt_eq_some_iff {i : Instr} {s t : State} (hs : s.halt = none) (h : exec i s = .next t) (r : HaltReason) :
    t.halt = some r ↔ haltCondition s r i := by
  refine ⟨fun ht => ?condition, fun hr => ?halts⟩
  case condition =>
    obtain ⟨q, hq, rfl⟩ | ⟨-, rfl⟩ := exec_next h
    · obtain rfl := Option.some.inj ht
      exact hq
    · rw [effect_halt, hs] at ht
      cases ht
  case halts =>
    rw [exec_of_haltCondition hr] at h
    obtain rfl := raiseHalt_next.mp h
    exact State.setHalt_halt s r

end Sys2Proof.Machine
end

section
/-! PROOFS. The obligation of the family of 60_exceptions.md, from the lemma above. -/

namespace Sys2Proof.Machine

/-- Settles O49: every instruction answers a next state, and the halt reason in it is that of a halt condition. -/
theorem instructionsHaltExactlyUnderTheirConditions : Obligations.InstructionsHaltExactlyUnderTheirConditions := by
  intro i s hs
  obtain ⟨t, ht⟩ := exec_total i s
  exact ⟨t, ht, exec_halt_eq_some_iff hs ht⟩

end Sys2Proof.Machine
end

section
/-! SUPPORT. What the family of 70_reset_and_hazards.md rests on: what the memory made of a list of bytes reads as, what
the 4096 bytes of the ROM variant are, and what a constructed core is besides its memory. -/

namespace Sys2Proof.Machine

/-! ### Memory made of bytes (R144) -/

/-- The cells are the bytes that construction would not have left there anyway. -/
theorem Memory.mem_ofBytes {bytes : List Byte} {p : Host.Cell} :
    p ∈ Memory.ofBytes bytes ↔ bytes[p.1]? = some p.2 ∧ p.2 ≠ initialByte p.1 := by
  have hzip : p ∈ (List.range bytes.length).zip bytes ↔ bytes[p.1]? = some p.2 := by
    simp only [List.mem_iff_getElem?, List.getElem?_zip_eq_some, List.getElem?_eq_some_iff (l := List.range _),
      List.getElem_range, List.length_range]
    constructor
    · rintro ⟨_, ⟨-, rfl⟩, hbyte⟩
      exact hbyte
    · intro hbyte
      exact ⟨p.1, ⟨(List.getElem?_eq_some_iff.mp hbyte).1, rfl⟩, hbyte⟩
  rw [Memory.ofBytes, List.mem_filter, hzip, bne_iff_ne]

/-- Memory holds the bytes verbatim: a byte is listed, or it is the one that an unlisted address reads as. -/
theorem Memory.read_ofBytes {bytes : List Byte} (hlen : bytes.length ≤ Config.memSize) {a : Nat} {w : Byte}
    (h : bytes[a]? = some w) : (Memory.ofBytes bytes).read a = w := by
  have hwf := Memory.wf_ofBytes hlen
  by_cases hw : w = initialByte a
  · by_contra hne
    have hlisted := Memory.mem_ofBytes.mp (Memory.mem_of_read_ne (hw ▸ hne))
    exact hne (Option.some.inj (hlisted.1.symm.trans h))
  · exact Memory.read_eq_of_mem hwf.1 (p := (a, w)) (Memory.mem_ofBytes.mpr ⟨h, hw⟩)

/-- Bytes that are all as construction leaves them list no cell. -/
theorem Memory.ofBytes_eq_nil {bytes : List Byte} (h : ∀ a w, bytes[a]? = some w → w = initialByte a) :
    Memory.ofBytes bytes = [] :=
  List.eq_nil_iff_forall_not_mem.mpr fun p hp =>
    have hlisted := Memory.mem_ofBytes.mp hp
    hlisted.2 (h p.1 p.2 hlisted.1)

/-! ### The bytes of the ROM variant (R145) -/

theorem length_font : Config.font.length = 80 := rfl

/-- The font and the filler above it reach up to the load address. -/
theorem length_font_fill {load : Nat} (h : 0x200 ≤ load) :
    (Config.font ++ List.replicate (load - Config.font.length) Config.fill).length = load := by
  rw [List.length_append, List.length_replicate, length_font]
  omega

theorem romImage_getElem?_font (rom : List Byte) (load : Nat) {a : Nat} (ha : a < Config.font.length) :
    (romImage rom load)[a]? = some Config.font[a] := by
  simp only [romImage, List.append_assoc]
  rw [List.getElem?_append_left ha, List.getElem?_eq_getElem ha]

theorem romImage_getElem?_below (rom : List Byte) {load a : Nat} (h80 : 80 ≤ a) (ha : a < load) :
    (romImage rom load)[a]? = some Config.fill := by
  simp only [romImage, List.append_assoc]
  rw [List.getElem?_append_right (length_font ▸ h80), List.getElem?_append_left, List.getElem?_replicate_of_lt]
  all_goals simp only [List.length_replicate, length_font]; omega

theorem romImage_getElem?_rom {rom : List Byte} {load j : Nat} (h : 0x200 ≤ load) (hj : j < rom.length) :
    (romImage rom load)[load + j]? = some rom[j] := by
  have hbelow := length_font_fill h
  rw [romImage, List.append_assoc, List.getElem?_append_right (by omega), hbelow, Nat.add_sub_cancel_left,
    List.getElem?_append_left hj, List.getElem?_eq_getElem hj]

theorem romImage_getElem?_above {rom : List Byte} {load a : Nat} (h : 0x200 ≤ load) (ha : load + rom.length ≤ a)
    (hsize : a < 4096) : (romImage rom load)[a]? = some Config.fill := by
  have hrom : (Config.font ++ List.replicate (load - Config.font.length) Config.fill ++ rom).length =
      load + rom.length := by rw [List.length_append, length_font_fill h]
  have hfill : a - (load + rom.length) < Config.memSize - (load + rom.length) := Nat.sub_lt_sub_right ha hsize
  rw [romImage, List.getElem?_append_right (hrom ▸ ha), hrom, List.getElem?_replicate_of_lt hfill]

/-- The bytes of an empty ROM are what construction leaves: the font, and filler above it. -/
theorem romImage_nil_getElem? {load a : Nat} {w : Byte} (h : (romImage [] load)[a]? = some w) : w = initialByte a := by
  rw [romImage, List.append_nil, List.append_assoc, List.replicate_append_replicate] at h
  by_cases ha : a < Config.font.length
  · rw [List.getElem?_append_left ha, List.getElem?_eq_getElem ha] at h
    rw [initialByte, List.getD_eq_getElem _ _ ha, Option.some.inj h]
  · rw [List.getElem?_append_right (Nat.not_lt.mp ha)] at h
    rw [initialByte, List.getD_eq_default _ _ (Nat.not_lt.mp ha)]
    exact List.eq_of_mem_replicate (List.mem_of_getElem? h)

/-! ### Construction and the first step (R35, R144 to R146) -/

theorem constructImage_of_length {image : List Byte} (h : image.length = 4096) (start : Word) (rand : List Byte)
    (alt : Bool) :
    constructImage image start rand alt = some (State.constructed (Memory.ofBytes image) start rand) :=
  if_pos (wellFormedImage_iff.mpr h)

theorem constructImage_eq_none_iff {image : List Byte} {start : Word} {rand : List Byte} {alt : Bool} :
    constructImage image start rand alt = none ↔ image.length ≠ 4096 := by
  simp [constructImage, wellFormedImage_iff]

theorem constructRom_of_legal {rom : List Byte} {load : Word}
    (h : 0x200 ≤ load.toNat ∧ load.toNat + rom.length ≤ 4096) (rand : List Byte) (alt : Bool) :
    constructRom rom load rand alt =
      some (State.constructed (Memory.ofBytes (romImage rom load.toNat)) load rand) :=
  if_pos (wellFormedRom_iff.mpr h)

theorem constructRom_eq_none_iff {rom : List Byte} {load : Word} {rand : List Byte} {alt : Bool} :
    constructRom rom load rand alt = none ↔ ¬ (0x200 ≤ load.toNat ∧ load.toNat + rom.length ≤ 4096) := by
  rw [← wellFormedRom_iff]
  simp [constructRom]

/-- Besides memory a constructed core has the values of R35. -/
theorem constructed_atReset (mem : Memory) (pc : Word) (rand : List Byte) :
    AtReset pc rand (State.constructed mem pc rand) where
  v r := by simp [State.readV, State.constructed]
  i := rfl
  pcValue := rfl
  stack := rfl
  dt := rfl
  st := rfl
  acc := rfl
  fb := Framebuffer.get_clear
  keys k := by simp [State.keyDown, State.constructed]
  waiting := rfl
  waitReg := rfl
  halted := rfl
  source := rfl

/-- A timer at 0 stays there (R71). -/
theorem satdec_iterate_zero (n : Nat) : satdec^[n] 0 = 0 :=
  Function.iterate_fixed rfl n

/-- With both timers at 0 the ticks change the accumulator only (R70, R71). -/
theorem unchangedBut_elapse_of_timers_zero {s : State} {e : Rat} (hacc : 0 ≤ s.acc + e) (hdt : s.dt = 0)
    (hst : s.st = 0) : UnchangedBut [.acc] s (s.elapse e) := by
  have hclock : s.clock.elapse e = _ := Clock.elapse_eq_tickTimes hacc
  have hdtKept : (s.elapse e).dt = s.dt := by
    rw [State.elapse_dt, hclock, Clock.tickTimes, State.clock_dt, hdt, satdec_iterate_zero]
  have hstKept : (s.elapse e).st = s.st := by
    rw [State.elapse_st, hclock, Clock.tickTimes, State.clock_st, hst, satdec_iterate_zero]
  intro p hp
  cases p with
  | acc => exact absurd List.mem_cons_self hp
  | dt => exact hdtKept
  | st => exact hstKept
  | _ => exact unchangedBut_elapse s e _ (by decide)

/-- The first step of a core at its reset values halts where no instruction can be fetched (R40, R76). -/
theorem AtReset.stepElapsed_halts {s : State} {pc : Word} {rand : List Byte} (h : AtReset pc rand s)
    (hpc : 0xFFF ≤ pc.toNat) {e : Rat} (he : 0 ≤ e) :
    ∃ t, stepElapsed e s = .next t ∧ t.halt = some .memoryOutOfRange ∧ UnchangedBut [.acc, .halt] s t := by
  have hout : Config.memSize ≤ (s.elapse e).pc.toNat + 1 := by
    rw [State.elapse_pc, h.pcValue]
    exact Nat.succ_le_succ hpc
  have hticks : UnchangedBut [.acc] s (s.elapse e) :=
    unchangedBut_elapse_of_timers_zero (by rw [h.acc, zero_add]; exact he) h.dt h.st
  obtain ⟨hhalt, hrest⟩ := haltsWith_halt .memoryOutOfRange (s.elapse e)
  refine ⟨_, ?_, hhalt, hticks.append hrest⟩
  rw [stepElapsed_of_legal h.halted he, h.waiting, if_neg (by decide), fetchExecute_of_outside hout]
  rfl

end Sys2Proof.Machine
end

section
/-! PROOFS. The obligations of the family of 70_reset_and_hazards.md, from the lemmas above. -/

namespace Sys2Proof.Machine

/-- Settles O3: both constructors answer a core exactly for well-formed arguments. -/
theorem constructionFailsExactlyWhenIllegal : Obligations.ConstructionFailsExactlyWhenIllegal := by
  intro bytes a rand alt
  refine ⟨constructImage_eq_none_iff, constructRom_eq_none_iff.trans ?_⟩
  omega

/-- Settles O4: the bytes of an empty ROM are those of an empty list of cells. -/
theorem resetIsTheEmptyRomCore : Obligations.ResetIsTheEmptyRomCore := by
  intro alt
  rw [constructRom_of_legal (by decide), Memory.ofBytes_eq_nil fun a w => romImage_nil_getElem?]
  rfl

/-- Settles O1: the memory made of the image reads as the image, and the core is otherwise as reset. -/
theorem imageConstructionHoldsImageAndResetValues : Obligations.ImageConstructionHoldsImageAndResetValues := by
  intro image start rand alt
  refine ⟨constructImage_eq_none_iff.mpr, fun hlen => ?_⟩
  have hreset := constructed_atReset (Memory.ofBytes image) start rand
  exact ⟨_, constructImage_of_length hlen start rand alt,
    fun a ha => Memory.read_ofBytes hlen.le (List.getElem?_eq_getElem ha), hreset,
    fun hstart e he => hreset.stepElapsed_halts hstart he⟩

/-- Settles O2: each range of memory is a part of the ROM variant's bytes. -/
theorem romConstructionLaysOutMemory : Obligations.RomConstructionLaysOutMemory := by
  intro rom load rand alt
  refine ⟨fun hlegal => ?_, constructRom_eq_none_iff.mpr⟩
  have hload := hlegal.1
  have hlen := (romImage_length hload hlegal.2).le
  refine ⟨_, constructRom_of_legal hlegal rand alt, constructed_atReset _ load rand, length_font, ?font, ?below, ?rom,
    ?above⟩
  case font => exact fun a ha => Memory.read_ofBytes hlen (romImage_getElem?_font rom _ ha)
  case below => exact fun a h80 ha => Memory.read_ofBytes hlen (romImage_getElem?_below rom h80 ha)
  case rom => exact fun j hj => Memory.read_ofBytes hlen (romImage_getElem?_rom hload hj)
  case above => exact fun a ha hsize => Memory.read_ofBytes hlen (romImage_getElem?_above hload ha hsize)

end Sys2Proof.Machine
end
